-- ==== Sys2Proof/Word.lean ====
section
/-! DEFINITION. The Word and the byte of the machine (spec/00_scope.md R6, R9, R17). -/

namespace Sys2Proof

/-- A Word: "a 16-bit unit of storage and the native integer size of this architecture" (R17).
Its addition wraps modulo 65536 (R9). -/
abbrev Word := BitVec 16

/-- A byte, the unit of the I/O interface only (R13, R39). -/
abbrev Byte := BitVec 8

end Sys2Proof
end

