-- ==== Sys2Proof/Config.lean ====
section
/-! DEFINITION. What is fixed for one machine (the spec's open parameters), the words the I/O capability and the
engine exchange, and the free values. -/

namespace Sys2Proof

/-- The parameters the source leaves open (R7). The state carries them, so a claim holds for every value of them. -/
structure Params where
  /-- `RESET_PC`: the address the PC takes at initialisation (D1). -/
  resetPc : Word
  /-- `STRICT_FIELDS`: a Word with wrong fixed fields is a decode error (D5, R70). -/
  strictFields : Bool
  /-- `JSRR_LINK_FIRST`: JSRR writes R7 before it reads its base register (D10, R108). -/
  jsrrLinkFirst : Bool
  deriving DecidableEq, Repr

/-- The defaults of R7: 0x3000, true, true. -/
def Params.specDefault : Params := { resetPc := 0x3000#16, strictFields := true, jsrrLinkFirst := true }

/-- The I/O capability's error value, "uninterpreted" (R124): a bare tag, which no rule reads. -/
structure IoError where
  tag : Nat
  deriving DecidableEq, Repr, Inhabited

/-- What the host answers to one `IoReadByte()` (R13, R92). -/
inductive ReadAnswer where
  /-- A byte. -/
  | byte (b : Byte)
  /-- The capability reports failure. -/
  | failed (e : IoError)
  /-- No answer, ever: the step never ends (R92, R121). -/
  | never
  deriving DecidableEq, Repr, Inhabited

/-- What the host answers to one `IoWriteByte` or `IoWriteBytes` (R13, R120). -/
inductive WriteAnswer where
  | accepted
  /-- Failure, after at most the first `reached` bytes reached the output (any prefix, D14). -/
  | failed (e : IoError) (reached : Nat)
  deriving DecidableEq, Repr, Inhabited

/-- One call of the output half of the I/O capability, with its argument (R13). -/
inductive WriteCall where
  | byte (b : Byte)
  | bytes (s : List Byte)
  deriving DecidableEq, Repr

/-- One I/O call that has returned. -/
inductive IoEvent where
  | readByte (b : Byte)
  | readFailed (e : IoError)
  | wrote (call : WriteCall)
  /-- The call failed; `reached` are the bytes that reached the output all the same (R120). -/
  | writeFailed (call : WriteCall) (e : IoError) (reached : List Byte)
  deriving DecidableEq, Repr

/-- What a memory Word no write and no loader has set reads as. DESIGN CHOICE (notes/assumptions/3.md): the spec
makes it a launch input (D3). -/
def Config.unlistedWord : Word := 0#16

/-- FREE VALUE (notes/assumptions/5.md): the host's answer to an `IoReadByte()` for which the state holds none,
after the I/O calls listed. Nothing is known of it. -/
opaque Config.freeReadAnswer : List IoEvent → ReadAnswer

/-- FREE VALUE (notes/assumptions/5.md): the host's answer to a write call for which the state holds none, after the
I/O calls listed. Nothing is known of it. -/
opaque Config.freeWriteAnswer : List IoEvent → WriteAnswer

end Sys2Proof
end

