-- ==== Sys2Proof/Syntax.lean ====
section
/-! DEFINITION. The instructions: one constructor per row of spec/opcode_table.json. -/

namespace Sys2Proof

/-- A general register: "an opaque small enumerable value, not a raw integer" (R20, R21). -/
inductive Reg where
  | r0 | r1 | r2 | r3 | r4 | r5 | r6 | r7
  deriving DecidableEq, Repr

/-- An instruction (R55, R56 to R67). Immediates and offsets are the fields' own bits; Machine/Operands.lean extends
them (R68). Rows are named as in the table, with the form's name where two rows share a mnemonic. -/
inductive Instr where
  /-- ADD, format OPR (R56, R93). -/
  | addReg (dr sr1 sr2 : Reg)
  /-- ADD, format OPI (R57, R94). -/
  | addImm (dr sr1 : Reg) (imm5 : BitVec 5)
  /-- AND, format OPR (R56, R95). -/
  | andReg (dr sr1 sr2 : Reg)
  /-- AND, format OPI (R57, R96). -/
  | andImm (dr sr1 : Reg) (imm5 : BitVec 5)
  /-- NOT (R58, R97). -/
  | not (dr sr : Reg)
  /-- LD, format PCR (R63, R98). -/
  | ld (dr : Reg) (off9 : BitVec 9)
  /-- LDI, format PCR (R63, R99). -/
  | ldi (dr : Reg) (off9 : BitVec 9)
  /-- LDR, format BOF (R64, R100). -/
  | ldr (dr base : Reg) (off6 : BitVec 6)
  /-- LEA, format PCR (R63, R101). -/
  | lea (dr : Reg) (off9 : BitVec 9)
  /-- ST, format PCR (R63, R102). -/
  | st (sr : Reg) (off9 : BitVec 9)
  /-- STI, format PCR (R63, R103). -/
  | sti (sr : Reg) (off9 : BitVec 9)
  /-- STR, format BOF (R64, R104). -/
  | str (sr base : Reg) (off6 : BitVec 6)
  /-- BR (R59, R105). -/
  | br (n z p : Bool) (off9 : BitVec 9)
  /-- JMP; RET is JMP R7 (R60, R106). -/
  | jmp (base : Reg)
  /-- JSR (R61, R107). -/
  | jsr (off11 : BitVec 11)
  /-- JSRR (R62, R108). -/
  | jsrr (base : Reg)
  /-- RTI (R66, R109). -/
  | rti
  /-- TRAP (R65, R110). -/
  | trap (vect : Byte)
  /-- The table's row RESERVED_1101, with the low 12 bits of its Word: no instruction at all (R67). It is ill-formed,
  and the decoder never gives it. -/
  | reserved1101 (low : BitVec 12)
  deriving DecidableEq, Repr

end Sys2Proof
end

