-- ==== Sys2Proof/WellFormed.lean ====
section
/-! DEFINITION. Which terms of Instr are instructions of the machine. -/

namespace Sys2Proof

/-- "the model never contains invalid instructions" (R71): every operand of the field's own width is valid, and the
reserved opcode 1101 is no instruction (R67). -/
def Instr.wellFormed : Instr → Bool
  | .addReg _ _ _ => true
  | .addImm _ _ _ => true
  | .andReg _ _ _ => true
  | .andImm _ _ _ => true
  | .not _ _ => true
  | .ld _ _ => true
  | .ldi _ _ => true
  | .ldr _ _ _ => true
  | .lea _ _ => true
  | .st _ _ => true
  | .sti _ _ => true
  | .str _ _ _ => true
  | .br _ _ _ _ => true
  | .jmp _ => true
  | .jsr _ => true
  | .jsrr _ => true
  | .rti => true
  | .trap _ => true
  | .reserved1101 _ => false

/-- `i` is an instruction of the machine. -/
abbrev Instr.WellFormed (i : Instr) : Prop := i.wellFormed = true

end Sys2Proof
end

