-- ==== Sys2Proof/Decode.lean ====
section
/-! DEFINITION. The decoder and the encoder (spec/30_encoding.md). Opcode numbers and field places other than ADD's
(register form) and TRAP's are PRESUMED by the spec itself (notes/assumptions/8.md). -/

namespace Sys2Proof

/-- Why a Word has no decoding. -/
inductive DecodeError where
  /-- Opcode 1101 (R67). -/
  | reservedOpcode (w : Word)
  /-- A known opcode with wrong fixed fields, `STRICT_FIELDS` being true (R70). -/
  | fixedFields (w : Word)
  deriving DecidableEq, Repr

/-- "A 3-bit register field with value i (0 to 7) names general register Ri" (R69). -/
def Reg.ofBits (b : BitVec 3) : Reg :=
  match b.toNat with
  | 0 => .r0
  | 1 => .r1
  | 2 => .r2
  | 3 => .r3
  | 4 => .r4
  | 5 => .r5
  | 6 => .r6
  | _ => .r7

/-- The 3-bit field that names a register (R69). -/
def Reg.bits : Reg → BitVec 3
  | .r0 => 0#3
  | .r1 => 1#3
  | .r2 => 2#3
  | .r3 => 3#3
  | .r4 => 4#3
  | .r5 => 5#3
  | .r6 => 6#3
  | .r7 => 7#3

/-- `w[15:12]` (R54). -/
def opcodeOf (w : Word) : BitVec 4 := w.extractLsb' 12 4

/-- The register named by the 3-bit field whose lowest bit is `lo` (R69). -/
def regAt (w : Word) (lo : Nat) : Reg := Reg.ofBits (w.extractLsb' lo 3)

/-- `i` if the fixed fields are as they should be or are not looked at (R70, R71's `fixed_ok`), else the named error. -/
def checkFixed (strict ok : Bool) (w : Word) (i : Instr) : Except DecodeError Instr :=
  if strict && !ok then .error (.fixedFields w) else .ok i

/-- The decoder: a "pure function", total on all 65536 Words (R71). `strict` is the parameter `STRICT_FIELDS`. -/
def decode (strict : Bool) (w : Word) : Except DecodeError Instr :=
  match (opcodeOf w).toNat with
  | 0b0000 => .ok (.br (w.getLsbD 11) (w.getLsbD 10) (w.getLsbD 9) (w.extractLsb' 0 9))
  | 0b0001 =>
    if w.getLsbD 5 then .ok (.addImm (regAt w 9) (regAt w 6) (w.extractLsb' 0 5))
    else checkFixed strict (w.extractLsb' 3 2 == 0b00#2) w (.addReg (regAt w 9) (regAt w 6) (regAt w 0))
  | 0b0010 => .ok (.ld (regAt w 9) (w.extractLsb' 0 9))
  | 0b0011 => .ok (.st (regAt w 9) (w.extractLsb' 0 9))
  | 0b0100 =>
    if w.getLsbD 11 then .ok (.jsr (w.extractLsb' 0 11))
    else checkFixed strict (w.extractLsb' 9 2 == 0b00#2 && w.extractLsb' 0 6 == 0b000000#6) w (.jsrr (regAt w 6))
  | 0b0101 =>
    if w.getLsbD 5 then .ok (.andImm (regAt w 9) (regAt w 6) (w.extractLsb' 0 5))
    else checkFixed strict (w.extractLsb' 3 2 == 0b00#2) w (.andReg (regAt w 9) (regAt w 6) (regAt w 0))
  | 0b0110 => .ok (.ldr (regAt w 9) (regAt w 6) (w.extractLsb' 0 6))
  | 0b0111 => .ok (.str (regAt w 9) (regAt w 6) (w.extractLsb' 0 6))
  | 0b1000 => checkFixed strict (w.extractLsb' 0 12 == 0#12) w .rti
  | 0b1001 => checkFixed strict (w.extractLsb' 0 6 == 0b111111#6) w (.not (regAt w 9) (regAt w 6))
  | 0b1010 => .ok (.ldi (regAt w 9) (w.extractLsb' 0 9))
  | 0b1011 => .ok (.sti (regAt w 9) (w.extractLsb' 0 9))
  | 0b1100 =>
    checkFixed strict (w.extractLsb' 9 3 == 0b000#3 && w.extractLsb' 0 6 == 0b000000#6) w (.jmp (regAt w 6))
  | 0b1110 => .ok (.lea (regAt w 9) (w.extractLsb' 0 9))
  | 0b1111 => checkFixed strict (w.extractLsb' 8 4 == 0b0000#4) w (.trap (w.extractLsb' 0 8))
  -- what is left is 0b1101, "no case" (R67, R71)
  | _ => .error (.reservedOpcode w)

/-- The encoder: it "writes every fixed field at its fixed value" (R72); formats R56 to R67, most significant field
first. -/
def encode : Instr → Word
  | .addReg dr sr1 sr2 => 0b0001#4 ++ dr.bits ++ sr1.bits ++ 0b000#3 ++ sr2.bits
  | .addImm dr sr1 imm5 => 0b0001#4 ++ dr.bits ++ sr1.bits ++ 0b1#1 ++ imm5
  | .andReg dr sr1 sr2 => 0b0101#4 ++ dr.bits ++ sr1.bits ++ 0b000#3 ++ sr2.bits
  | .andImm dr sr1 imm5 => 0b0101#4 ++ dr.bits ++ sr1.bits ++ 0b1#1 ++ imm5
  | .not dr sr => 0b1001#4 ++ dr.bits ++ sr.bits ++ 0b111111#6
  | .ld dr off9 => 0b0010#4 ++ dr.bits ++ off9
  | .ldi dr off9 => 0b1010#4 ++ dr.bits ++ off9
  | .ldr dr base off6 => 0b0110#4 ++ dr.bits ++ base.bits ++ off6
  | .lea dr off9 => 0b1110#4 ++ dr.bits ++ off9
  | .st sr off9 => 0b0011#4 ++ sr.bits ++ off9
  | .sti sr off9 => 0b1011#4 ++ sr.bits ++ off9
  | .str sr base off6 => 0b0111#4 ++ sr.bits ++ base.bits ++ off6
  | .br n z p off9 => 0b0000#4 ++ BitVec.ofBool n ++ BitVec.ofBool z ++ BitVec.ofBool p ++ off9
  | .jmp base => 0b1100#4 ++ 0b000#3 ++ base.bits ++ 0b000000#6
  | .jsr off11 => 0b0100#4 ++ 0b1#1 ++ off11
  | .jsrr base => 0b0100#4 ++ 0b0#1 ++ 0b00#2 ++ base.bits ++ 0b000000#6
  | .rti => 0b1000#4 ++ 0#12
  | .trap vect => 0b1111#4 ++ 0b0000#4 ++ vect
  | .reserved1101 low => 0b1101#4 ++ low

/-- The instruction the decoder reads from a table row's bits, with the spec's default parameters: every instruction
is one 16-bit Word (R53), so bits above the sixteenth are no instruction's. -/
def decodeTableWord (nbits w : Nat) : Option Instr :=
  if nbits ≤ 16 ∧ w < 65536 then (decode Params.specDefault.strictFields (BitVec.ofNat 16 w)).toOption else none

end Sys2Proof
end

