-- ==== Sys2Proof/Machine/State.lean ====
section
/-! DEFINITION. The state of the machine, why a step can stop, and the state after reset (spec/10_state.md). -/

namespace Sys2Proof.Machine

/-- The condition-flags register COND: "exactly one of three flags" (R26). -/
inductive Cond where
  | n | z | p
  deriving DecidableEq, Repr

/-- The operation of an unsupported-operation fault (R122). -/
inductive UnsupportedOp where
  | rti
  | trapVector (v : Byte)
  deriving DecidableEq, Repr

/-- The spec's `Fault` (the source's `TickError`): what ends a run without success (R122). In the model it is
recorded in the run status of a NEXT state (notes/assumptions/6.md). -/
inductive TickError where
  /-- The fetched Word and its address (R123). -/
  | decode (word addr : Word)
  /-- The I/O capability's error (R124). -/
  | io (kind : IoError)
  | unsupported (op : UnsupportedOp)
  deriving DecidableEq, Repr

/-- The run status: the outcome of the last step (R30). -/
inductive RunStatus where
  | running
  | halted
  | failed (e : TickError)
  deriving DecidableEq, Repr

/-- How far the launch has come (R78, R92, R139, R142): `init()` runs exactly once, and the host writes only before
the first step. -/
inductive Stage where
  /-- The instance exists and `init()` has not run. -/
  | created
  /-- `init()` has run and no step has begun. -/
  | initialised
  /-- The first step has begun. -/
  | started
  deriving DecidableEq, Repr

/-- R0 to R7 (R21). -/
structure RegFile where
  r0 : Word
  r1 : Word
  r2 : Word
  r3 : Word
  r4 : Word
  r5 : Word
  r6 : Word
  r7 : Word
  deriving DecidableEq, Repr

/-- The 65536 Words of memory (R32, R35) by their addresses: `Memory.wf` (Machine/Ops.lean) is its canonical form. The
spec's memory has no bytes, so a cell holds a Word (notes/assumptions/4.md). -/
abbrev Memory := List (Nat × Word)

/-- Everything the spec gives the machine. -/
structure State where
  /-- The open parameters (R7); no step changes them. -/
  params : Params
  regs : RegFile
  /-- The program counter (R23). -/
  pc : Word
  cond : Cond
  mem : Memory
  status : RunStatus
  stage : Stage
  /-- The host's next answers to `IoReadByte`, the first one first; the free value of notes/assumptions/5.md where
  the list is empty (R34, R92). -/
  readAnswers : List ReadAnswer
  /-- The host's next answers to the write calls, the first one first; the free value of notes/assumptions/5.md where
  the list is empty (R34, R92). -/
  writeAnswers : List WriteAnswer
  /-- Every I/O call that has returned, oldest first (R34, R52). -/
  ioLog : List IoEvent
  deriving DecidableEq, Repr

/-- The step has no outcome and the machine is stuck in it. -/
inductive Fault where
  /-- TRAP 0x22 (PUTS): no address holds a zero Word, the scan never ends (R116). Safe: the hardware makes no step
  either. -/
  | putsNeverEnds
  /-- TRAP 0x20 (GETC): the host never answers the read (R121). Safe: the hardware makes no step either. -/
  | inputNeverAnswered
  deriving DecidableEq, Repr

/-- The spec gives the call no meaning. -/
inductive Refusal where
  /-- `exec`, for an instruction that has no meaning yet. Safe: nothing can be proved of it. -/
  | notModelled (mnemonic : String)
  /-- `step` before `init()` (R78, R142). Safe: the spec refuses such a launch. -/
  | notInitialised
  /-- `step` when the run status is not Running (R78, R89). Safe: the spec has no step there. -/
  | runEnded
  /-- A second `init()` (R142). Raised by Machine/Launch.lean only. Safe: the spec refuses such a launch. -/
  | alreadyInitialised
  /-- A host write after the first step has begun, or of PC or COND after `init()` (R92, D18). Raised by
  Machine/Launch.lean only. Safe: the spec gives the host no such move. -/
  | hostWriteTooLate
  deriving DecidableEq, Repr

/-- Every general register zero. DESIGN CHOICE (notes/assumptions/2.md): the spec makes them launch inputs (D2). -/
def RegFile.zero : RegFile :=
  { r0 := 0#16, r1 := 0#16, r2 := 0#16, r3 := 0#16, r4 := 0#16, r5 := 0#16, r6 := 0#16, r7 := 0#16 }

/-- The machine right after `init()`, with the spec's default parameters: PC at `RESET_PC`, COND Z, status Running
(R33, R139); what the spec leaves to the launch is at the values of notes/assumptions/2.md, 3.md and 5.md. -/
def State.reset : State :=
  { params := Params.specDefault
    regs := RegFile.zero
    pc := Params.specDefault.resetPc
    cond := .z
    mem := []
    status := .running
    stage := .initialised
    readAnswers := []
    writeAnswers := []
    ioLog := [] }

end Sys2Proof.Machine
end

