-- ==== Sys2Proof/Machine/Ops.lean ====
section
/-! DEFINITION. The named operations over registers, memory, the run status and the I/O capability. Every meaning
reads and writes the state through them. -/

namespace Sys2Proof

/-- The bytes a write call asks for (R13). -/
def WriteCall.payload : WriteCall → List Byte
  | .byte b => [b]
  | .bytes l => l

/-- The bytes of one call that reached the output (R92, R120). -/
def IoEvent.reached : IoEvent → List Byte
  | .readByte _ => []
  | .readFailed _ => []
  | .wrote call => call.payload
  | .writeFailed _ _ l => l

end Sys2Proof

namespace Sys2Proof.Machine

/-! ### Registers -/

/-- `x[i]` (R11). -/
def RegFile.get (f : RegFile) : Reg → Word
  | .r0 => f.r0
  | .r1 => f.r1
  | .r2 => f.r2
  | .r3 => f.r3
  | .r4 => f.r4
  | .r5 => f.r5
  | .r6 => f.r6
  | .r7 => f.r7

/-- `x[i] <- v` (R11). No register is hardwired (R21). -/
def RegFile.set (f : RegFile) (r : Reg) (v : Word) : RegFile :=
  match r with
  | .r0 => { f with r0 := v }
  | .r1 => { f with r1 := v }
  | .r2 => { f with r2 := v }
  | .r3 => { f with r3 := v }
  | .r4 => { f with r4 := v }
  | .r5 => { f with r5 := v }
  | .r6 => { f with r6 := v }
  | .r7 => { f with r7 := v }

def State.reg (s : State) (r : Reg) : Word := s.regs.get r

def State.setReg (s : State) (r : Reg) (v : Word) : State := { s with regs := s.regs.set r v }

def State.setPc (s : State) (v : Word) : State := { s with pc := v }

def State.setCond (s : State) (c : Cond) : State := { s with cond := c }

/-! ### Memory -/

/-- The canonical form, from address `lo` on: addresses strictly rising and below 65536, no entry equal to what an
unlisted address reads as. -/
def Memory.wfFrom (lo : Nat) : Memory → Bool
  | [] => true
  | (k, v) :: t => decide (lo ≤ k) && decide (k < 65536) && decide (v ≠ Config.unlistedWord) && Memory.wfFrom (k + 1) t

/-- The one canonical form of a memory's contents. -/
def Memory.wf (m : Memory) : Bool := Memory.wfFrom 0 m

/-- `MemRead(a, 1)`: every address exists and no access faults (R12, R36). -/
def Memory.read : Memory → Word → Word
  | [], _ => Config.unlistedWord
  | (k, v) :: t, a => if k = a.toNat then v else Memory.read t a

/-- The memory with nothing listed at `a`. -/
def Memory.erase : Memory → Word → Memory
  | [], _ => []
  | (k, w) :: t, a => if k = a.toNat then Memory.erase t a else (k, w) :: Memory.erase t a

/-- The cell `(a, v)` put in its place by address. -/
def Memory.insert : Memory → Word → Word → Memory
  | [], a, v => [(a.toNat, v)]
  | (k, w) :: t, a, v =>
    if k < a.toNat then (k, w) :: Memory.insert t a v else (a.toNat, v) :: (k, w) :: t

/-- `MemWrite(a, 1, v)` (R12), keeping the canonical form: a Word equal to what an unlisted address reads as is not
listed. -/
def Memory.write (m : Memory) (a v : Word) : Memory :=
  if v = Config.unlistedWord then m.erase a else (m.erase a).insert a v

def State.writeMem (s : State) (a v : Word) : State := { s with mem := s.mem.write a v }

/-- The low 8 bits of a Word, the byte that OUT and PUTS emit (R39, D12). -/
def lowByte (v : Word) : Byte := v.extractLsb' 0 8

/-- R44's loop, for at most `n` more Words; `none` when none of them is the terminator. -/
def Memory.scan : Nat → Memory → Word → Option (List Byte)
  | 0, _, _ => none
  | n + 1, m, a =>
    if m.read a = 0#16 then some [] else (Memory.scan n m (a + 1#16)).map (lowByte (m.read a) :: ·)

/-- `MemReadString(a)` (R44). After 65536 Words the scan is back at `a`, so `none` is the scan that never ends
(R116). -/
def Memory.readString (m : Memory) (a : Word) : Option (List Byte) := Memory.scan 65536 m a

/-! ### Ending a run -/

def State.setStatus (s : State) (r : RunStatus) : State := { s with status := r }

/-- `raise e`: the step ends with `Failed(e)`; "Writes made earlier in the same step stay made" (R14, R127). This is
the machine's one way to take a fault; there is no handler to go to and nothing to return to. -/
def raise (e : TickError) (s : State) : Host.Outcome State Fault Refusal := .next (s.setStatus (.failed e))

/-- `halt`: the step ends with `Halted` (R14, R115). -/
def halt (s : State) : Host.Outcome State Fault Refusal := .next (s.setStatus .halted)

/-! ### The I/O capability -/

def State.setReadAnswers (s : State) (l : List ReadAnswer) : State := { s with readAnswers := l }

def State.setWriteAnswers (s : State) (l : List WriteAnswer) : State := { s with writeAnswers := l }

/-- A call has returned. -/
def State.logIo (s : State) (e : IoEvent) : State := { s with ioLog := s.ioLog ++ [e] }

/-- The output byte stream: "the bytes written, in program order" (R34, R92). -/
def State.output (s : State) : List Byte := s.ioLog.flatMap IoEvent.reached

/-- The host's answer to the next read, and the state without it. -/
def State.takeReadAnswer (s : State) : ReadAnswer × State :=
  match s.readAnswers with
  | [] => (Config.freeReadAnswer s.ioLog, s)
  | a :: rest => (a, s.setReadAnswers rest)

/-- The host's answer to the next write call, and the state without it. -/
def State.takeWriteAnswer (s : State) : WriteAnswer × State :=
  match s.writeAnswers with
  | [] => (Config.freeWriteAnswer s.ioLog, s)
  | a :: rest => (a, s.setWriteAnswers rest)

/-- `IoWriteByte` or `IoWriteBytes`, and the end of the service that made the call: it goes on, or raises `Io(e)` with
some prefix of the bytes output (R113, R114, R120). -/
def ioWrite (call : WriteCall) (s : State) : Host.Outcome State Fault Refusal :=
  match s.takeWriteAnswer with
  | (.accepted, t) => .next (t.logIo (.wrote call))
  | (.failed e n, t) => raise (.io e) (t.logIo (.writeFailed call e (call.payload.take n)))

/-! ### The cycle's own operations -/

/-- `w <- MemRead(pc, 1)` (R79). -/
def State.fetch (s : State) : Word := s.mem.read s.pc

/-- `pc <- A + 1`, modulo 65536 (R81). -/
def State.advancePc (s : State) : State := s.setPc (s.pc + 1#16)

def State.setStage (s : State) (g : Stage) : State := { s with stage := g }

/-- The decode fault for Word `w` at the PC: "the PC still holds A", nothing else is written (R80, R123). -/
def decodeFault (w : Word) (s : State) : Host.Outcome State Fault Refusal := raise (.decode w s.pc) s

end Sys2Proof.Machine
end

