-- ==== Sys2Proof/Machine/Flags.lean ====
section
/-! DEFINITION. The condition codes (spec/40_execution_cycle.md R85, R86; spec/43_control.md R105). -/

namespace Sys2Proof.Machine

/-- The flag of a Word: Z for zero, P for sign bit clear, N for sign bit set (R85). -/
def condOf (v : Word) : Cond :=
  if v = 0#16 then .z else if v.getLsbD 15 then .n else .p

/-- `setcc(v)` (R85). -/
def State.setcc (s : State) (v : Word) : State := s.setCond (condOf v)

/-- BR's condition: COND is one of the flags the instruction selects (R105). -/
def condSelected (n z p : Bool) : Cond → Bool
  | .n => n
  | .z => z
  | .p => p

/-- The common end of the seven flag-affecting instructions: DR is written, then the flags follow the value written
(R86). -/
def writeDr (dr : Reg) (v : Word) (s : State) : Host.Outcome State Fault Refusal := .next ((s.setReg dr v).setcc v)

end Sys2Proof.Machine
end

