-- ==== Sys2Proof/Machine/Operands.lean ====
section
/-! DEFINITION. Operand forms: extension of fields and effective addresses (R10, R68; the addressing modes of
spec/42_data_movement.md). During an effect `pc` is A + 1 (R84). -/

namespace Sys2Proof.Machine

/-- `sext_N` (R10). -/
def sext {n : Nat} (v : BitVec n) : Word := v.signExtend 16

/-- `zext_N` (R10). -/
def zext {n : Nat} (v : BitVec n) : Word := v.setWidth 16

/-- PC-relative: `pc + sext_9` or `pc + sext_11`, modulo 65536. -/
def pcRelative {n : Nat} (off : BitVec n) (s : State) : Word := s.pc + sext off

/-- Base plus offset: `x[BaseR] + sext_6`, modulo 65536. -/
def basePlus (base : Reg) (off6 : BitVec 6) (s : State) : Word := s.reg base + sext off6

/-- Indirect: the pointer Word at the PC-relative address (R99, R103). -/
def indirect (off9 : BitVec 9) (s : State) : Word := s.mem.read (pcRelative off9 s)

end Sys2Proof.Machine
end

