-- ==== Sys2Proof/Machine/Control.lean ====
section
/-! DEFINITION. BR, JMP, JSR, JSRR, RTI (spec/43_control.md). -/

namespace Sys2Proof.Machine

/-- BR (R105). -/
def execBr (n z p : Bool) (off9 : BitVec 9) (s : State) : Host.Outcome State Fault Refusal :=
  .next (if condSelected n z p s.cond then s.setPc (pcRelative off9 s) else s)

/-- JMP, RET (R106). -/
def execJmp (base : Reg) (s : State) : Host.Outcome State Fault Refusal :=
  .next (s.setPc (s.reg base))

/-- `x[7] <- pc`: the return address A + 1 (R84, R107, R108, R110). -/
def linkR7 (s : State) : State := s.setReg .r7 s.pc

/-- JSR (R107). -/
def execJsr (off11 : BitVec 11) (s : State) : Host.Outcome State Fault Refusal :=
  .next ((linkR7 s).setPc (pcRelative off11 s))

/-- JSRR (R108, C7): with `JSRR_LINK_FIRST` the base register is read after R7 is written, else before. -/
def execJsrr (base : Reg) (s : State) : Host.Outcome State Fault Refusal :=
  .next ((linkR7 s).setPc (if s.params.jsrrLinkFirst then (linkR7 s).reg base else s.reg base))

/-- RTI (R109): the machine has one mode and no interrupts, and RTI always raises `Unsupported(RTI)`. -/
def execRti (s : State) : Host.Outcome State Fault Refusal :=
  raise (.unsupported .rti) s

end Sys2Proof.Machine
end

