-- ==== Sys2Proof/Machine/DataMovement.lean ====
section
/-! DEFINITION. LD, LDI, LDR, LEA, ST, STI, STR (spec/42_data_movement.md). -/

namespace Sys2Proof.Machine

/-- LD (R98). -/
def execLd (dr : Reg) (off9 : BitVec 9) (s : State) : Host.Outcome State Fault Refusal :=
  writeDr dr (s.mem.read (pcRelative off9 s)) s

/-- LDI (R99): the flags follow the final Word, not the pointer. -/
def execLdi (dr : Reg) (off9 : BitVec 9) (s : State) : Host.Outcome State Fault Refusal :=
  writeDr dr (s.mem.read (indirect off9 s)) s

/-- LDR (R100). -/
def execLdr (dr base : Reg) (off6 : BitVec 6) (s : State) : Host.Outcome State Fault Refusal :=
  writeDr dr (s.mem.read (basePlus base off6 s)) s

/-- LEA (R101): the address itself, no memory read; it sets COND (C6). -/
def execLea (dr : Reg) (off9 : BitVec 9) (s : State) : Host.Outcome State Fault Refusal :=
  writeDr dr (pcRelative off9 s) s

/-- ST (R102). -/
def execSt (sr : Reg) (off9 : BitVec 9) (s : State) : Host.Outcome State Fault Refusal :=
  .next (s.writeMem (pcRelative off9 s) (s.reg sr))

/-- STI (R103): the pointer is read before the store. -/
def execSti (sr : Reg) (off9 : BitVec 9) (s : State) : Host.Outcome State Fault Refusal :=
  .next (s.writeMem (indirect off9 s) (s.reg sr))

/-- STR (R104). -/
def execStr (sr base : Reg) (off6 : BitVec 6) (s : State) : Host.Outcome State Fault Refusal :=
  .next (s.writeMem (basePlus base off6 s) (s.reg sr))

end Sys2Proof.Machine
end

