-- ==== Sys2Proof/Machine/Operate.lean ====
section
/-! DEFINITION. ADD, AND, NOT (spec/41_operate.md). -/

namespace Sys2Proof.Machine

/-- ADD, register form (R93). -/
def execAddReg (dr sr1 sr2 : Reg) (s : State) : Host.Outcome State Fault Refusal :=
  writeDr dr (s.reg sr1 + s.reg sr2) s

/-- ADD, immediate form (R94). -/
def execAddImm (dr sr1 : Reg) (imm5 : BitVec 5) (s : State) : Host.Outcome State Fault Refusal :=
  writeDr dr (s.reg sr1 + sext imm5) s

/-- AND, register form (R95). -/
def execAndReg (dr sr1 sr2 : Reg) (s : State) : Host.Outcome State Fault Refusal :=
  writeDr dr (s.reg sr1 &&& s.reg sr2) s

/-- AND, immediate form (R96). -/
def execAndImm (dr sr1 : Reg) (imm5 : BitVec 5) (s : State) : Host.Outcome State Fault Refusal :=
  writeDr dr (s.reg sr1 &&& sext imm5) s

/-- NOT (R97). -/
def execNot (dr sr : Reg) (s : State) : Host.Outcome State Fault Refusal :=
  writeDr dr (~~~ s.reg sr) s

end Sys2Proof.Machine
end

