-- ==== Sys2Proof/Machine/Reserved.lean ====
section
/-! DEFINITION. The table's row RESERVED_1101 (R67). -/

namespace Sys2Proof.Machine

/-- A Word 1101 xxxx xxxx xxxx is no instruction: "every Word matching it is a decode error" (opcode_table.json, R67).
`step` raises that error before any effect; this is the same fault for the term itself, with `pc` put back from A + 1
to A (R80). -/
def execReserved1101 (low : BitVec 12) (s : State) : Host.Outcome State Fault Refusal :=
  decodeFault (encode (.reserved1101 low)) (s.setPc (s.pc - 1#16))

end Sys2Proof.Machine
end

