-- ==== Sys2Proof/Machine/Trap.lean ====
section
/-! DEFINITION. TRAP and the trap services (spec/44_trap.md). Each service is given the state in which R7 already
holds the return address (R110). -/

namespace Sys2Proof.Machine

/-- Vector 0x20, GETC (R112, R120, R121). -/
def trapGetc (s : State) : Host.Outcome State Fault Refusal :=
  match s.takeReadAnswer with
  | (.byte b, t) => .next ((t.logIo (.readByte b)).setReg .r0 (zext b))
  | (.failed e, t) => raise (.io e) (t.logIo (.readFailed e))
  | (.never, _) => .fault .inputNeverAnswered

/-- Vector 0x21, OUT (R113). -/
def trapOut (s : State) : Host.Outcome State Fault Refusal :=
  ioWrite (.byte (lowByte (s.reg .r0))) s

/-- Vector 0x22, PUTS (R114): the whole string is read before anything is written, in one call. -/
def trapPuts (s : State) : Host.Outcome State Fault Refusal :=
  match s.mem.readString (s.reg .r0) with
  | some l => ioWrite (.bytes l) s
  | none => .fault .putsNeverEnds

/-- Vector 0x25, HALT (R115). -/
def trapHalt (s : State) : Host.Outcome State Fault Refusal := halt s

/-- `trap(v)` (R111, R117). -/
def trapService (v : Byte) (s : State) : Host.Outcome State Fault Refusal :=
  if v = 0x20#8 then trapGetc s
  else if v = 0x21#8 then trapOut s
  else if v = 0x22#8 then trapPuts s
  else if v = 0x25#8 then trapHalt s
  else raise (.unsupported (.trapVector v)) s

/-- TRAP (R110): R7 is written for every vector, before the service. -/
def execTrap (vect : Byte) (s : State) : Host.Outcome State Fault Refusal :=
  trapService vect (linkR7 s)

end Sys2Proof.Machine
end

