-- ==== Sys2Proof/Machine/Dispatch.lean ====
section
/-! DEFINITION. The effect of each instruction: one arm per constructor of Instr (R82). -/

namespace Sys2Proof.Machine

def exec (i : Instr) (s : State) : Host.Outcome State Fault Refusal :=
  match i with
  -- spec/41_operate.md
  | .addReg dr sr1 sr2 => Sys2Proof.Machine.execAddReg dr sr1 sr2 s
  | .addImm dr sr1 imm5 => Sys2Proof.Machine.execAddImm dr sr1 imm5 s
  | .andReg dr sr1 sr2 => Sys2Proof.Machine.execAndReg dr sr1 sr2 s
  | .andImm dr sr1 imm5 => Sys2Proof.Machine.execAndImm dr sr1 imm5 s
  | .not dr sr => Sys2Proof.Machine.execNot dr sr s
  -- spec/42_data_movement.md
  | .ld dr off9 => Sys2Proof.Machine.execLd dr off9 s
  | .ldi dr off9 => Sys2Proof.Machine.execLdi dr off9 s
  | .ldr dr base off6 => Sys2Proof.Machine.execLdr dr base off6 s
  | .lea dr off9 => Sys2Proof.Machine.execLea dr off9 s
  | .st sr off9 => Sys2Proof.Machine.execSt sr off9 s
  | .sti sr off9 => Sys2Proof.Machine.execSti sr off9 s
  | .str sr base off6 => Sys2Proof.Machine.execStr sr base off6 s
  -- spec/43_control.md
  | .br n z p off9 => Sys2Proof.Machine.execBr n z p off9 s
  | .jmp base => Sys2Proof.Machine.execJmp base s
  | .jsr off11 => Sys2Proof.Machine.execJsr off11 s
  | .jsrr base => Sys2Proof.Machine.execJsrr base s
  | .rti => Sys2Proof.Machine.execRti s
  -- spec/44_trap.md
  | .trap vect => Sys2Proof.Machine.execTrap vect s
  -- spec/30_encoding.md R67
  | .reserved1101 low => Sys2Proof.Machine.execReserved1101 low s

end Sys2Proof.Machine
end

