-- ==== Sys2Proof/Machine/Cycle.lean ====
section
/-! DEFINITION. The single step, once it is defined (spec/40_execution_cycle.md R83). -/

namespace Sys2Proof.Machine

/-- Why no step is defined in this state, if none is (R78). -/
def State.noStep (s : State) : Option Refusal :=
  match s.stage, s.status with
  | .created, _ => some .notInitialised
  | _, .running => none
  | _, .halted => some .runEnded
  | _, .failed _ => some .runEnded

/-- Fetch, decode, increment, effect (R79 to R83). -/
def cycle (s : State) : Host.Outcome State Fault Refusal :=
  match decode s.params.strictFields s.fetch with
  | .error _ => decodeFault s.fetch s
  | .ok i => exec i s.advancePc

end Sys2Proof.Machine
end

