-- ==== Sys2Proof/Machine/Step.lean ====
section
/-! DEFINITION. One step of the machine, and how a Word is put where it is fetched next. -/

namespace Sys2Proof.Machine

/-- `step()` (R77, R83), defined only after `init()` and while the run status is Running (R78). -/
def step (s : State) : Host.Outcome State Fault Refusal :=
  match s.noStep with
  | some r => .refused r
  | none => cycle (s.setStage .started)

/-- `s` with the Word `w` stored where `step` fetches next (a load of one Word; every row of the table is one Word,
R53). -/
def State.withFetchWord (s : State) (_nbits w : Nat) : State := s.writeMem s.pc (BitVec.ofNat 16 w)

end Sys2Proof.Machine
end

