-- ==== Sys2Proof/Machine/Driver.lean ====
section
/-! DEFINITION. The driver loop, which defines a run (R88, R89, R91). -/

namespace Sys2Proof.Machine

/-- `run()`, for at most `n` steps: it stops at Halted or Failed (R88) and, being cancelled, after `n` steps with the
run status still Running (R91). The state it answers holds the run's outcome in its run status. A step that is stuck,
or a launch without `init()`, is answered as it is. The one wait without a bound, GETC's, is the fault
`inputNeverAnswered`. What a claim that a run ends assumes of the host (R148) is stated with `State.EndsIn`, in
Sys2Proof/Safety.lean. -/
def drive : Nat → State → Host.Outcome State Fault Refusal
  | 0, s => .next s
  | n + 1, s =>
    match s.status with
    | .running =>
      match step s with
      | .next t => drive n t
      | .fault f => .fault f
      | .refused r => .refused r
    | .halted => .next s
    | .failed _ => .next s

/-- How often the host calls `step()` in one run (R88, R91). -/
inductive HostCalls where
  /-- For as long as the run goes on. -/
  | keepsCalling
  /-- `n` times at most: the run is cancelled then. -/
  | cancelsAfter (n : Nat)
  deriving DecidableEq, Repr

/-- The host makes `n` calls, if the run needs so many. -/
def HostCalls.allow : HostCalls → Nat → Bool
  | .keepsCalling, _ => true
  | .cancelsAfter k, n => decide (n ≤ k)

end Sys2Proof.Machine
end

