-- ==== Sys2Proof/Machine/Launch.lean ====
section
/-! DEFINITION. What the host may do before the first step, and how it reads the registers (R11, R92, R139 to R143). -/

namespace Sys2Proof.Machine

/-- A new instance as the host made it: its registers and memory are the host's (R140, R141), `init()` has not run.
PC, COND and the run status hold nothing of meaning yet: `init()` overwrites them. -/
def State.created (params : Params) (regs : RegFile) (mem : Memory) (reads : List ReadAnswer)
    (writes : List WriteAnswer) : State :=
  { params := params
    regs := regs
    pc := 0#16
    cond := .z
    mem := mem
    status := .running
    stage := .created
    readAnswers := reads
    writeAnswers := writes
    ioLog := [] }

/-- `init()` (R139): exactly once (R142). It writes PC, COND and the run status and nothing else (R140). -/
def initOnce (s : State) : Host.Outcome State Fault Refusal :=
  match s.stage with
  | .created => .next ((((s.setPc s.params.resetPc).setCond .z).setStatus .running).setStage .initialised)
  | .initialised => .refused .alreadyInitialised
  | .started => .refused .alreadyInitialised

/-- One write by the host (R92). -/
inductive HostWrite where
  | reg (r : Reg) (v : Word)
  | mem (a v : Word)
  | pc (v : Word)
  | cond (c : Cond)
  deriving DecidableEq, Repr

def HostWrite.apply (s : State) : HostWrite → State
  | .reg r v => s.setReg r v
  | .mem a v => s.writeMem a v
  | .pc v => s.setPc v
  | .cond c => s.setCond c

/-- Registers and memory before the first step; PC and COND before `init()` only (R92, D18). -/
def HostWrite.allowed : Stage → HostWrite → Bool
  | .created, .reg _ _ => true
  | .created, .mem _ _ => true
  | .created, .pc _ => true
  | .created, .cond _ => true
  | .initialised, .reg _ _ => true
  | .initialised, .mem _ _ => true
  | .initialised, .pc _ => false
  | .initialised, .cond _ => false
  | .started, .reg _ _ => false
  | .started, .mem _ _ => false
  | .started, .pc _ => false
  | .started, .cond _ => false

/-- The host writes, if the launch still lets it. -/
def hostWrite (h : HostWrite) (s : State) : Host.Outcome State Fault Refusal :=
  if h.allowed s.stage then .next (h.apply s) else .refused .hostWriteTooLate

/-- The 10 register slots (R20). -/
inductive RegId where
  | general (r : Reg)
  | pc
  | cond
  deriving DecidableEq, Repr

/-- COND as a Word, which only the host can see (R28, D19): P = 1, Z = 2, N = 4. PRESUMED by the spec
(notes/assumptions/10.md). -/
def Cond.toWord : Cond → Word
  | .p => 0x0001#16
  | .z => 0x0002#16
  | .n => 0x0004#16

/-- `read_reg(id)` (R11), at a step boundary (R92). -/
def State.readSlot (s : State) : RegId → Word
  | .general r => s.reg r
  | .pc => s.pc
  | .cond => s.cond.toWord

end Sys2Proof.Machine
end

