-- ==== Sys2Proof/Safety.lean ====
section
/-! DEFINITION. The terms in which statements about the machine are made: when a step is defined, what a good end of
a run is, what a run's end assumes of the host, what a step leaves alone, and the invariant. -/

namespace Sys2Proof

/-- An I/O event of the record: where a write call failed, what reached the output is a part of what was
asked for, from its start on (R120). -/
def IoEvent.legal : IoEvent → Bool
  | .readByte _ => true
  | .readFailed _ => true
  | .wrote _ => true
  | .writeFailed call _ reached => reached.isPrefixOf call.payload

end Sys2Proof

namespace Sys2Proof.Machine

/-- A step is defined (R78). -/
abbrev State.MayStep (s : State) : Prop := s.stage ≠ .created ∧ s.status = .running

/-- The run's successful end (R89). -/
abbrev State.Succeeded (s : State) : Prop := s.status = .halted

/-- The run ended in a fault, which "is not a successful end" (R89). -/
abbrev State.Failed (s : State) : Prop := ∃ e, s.status = .failed e

/-! ### The observation of a run's end, and what it assumes of the host (R148) -/

/-- The observation of a run's end: under the host's calls `c`, the run from `s` ends in `t`, halted or failed. A
cancelled run and a run that waits do not end (R91, R121). Whether the end is a good one is `State.Succeeded` (R89). -/
abbrev State.EndsIn (s : State) (c : HostCalls) (t : State) : Prop :=
  ∃ n, c.allow n = true ∧ drive n s = .next t ∧ (t.Succeeded ∨ t.Failed)

/-- The next step makes GETC's blocking read (R112). -/
abbrev State.ReadsInput (s : State) : Prop :=
  s.MayStep ∧ decode s.params.strictFields s.fetch = .ok (.trap 0x20#8)

/-- The first assumption of R148: "the host eventually answers every GETC read (a byte or a failure)", at every state
of the run from `s` that makes one. -/
abbrev State.EveryReadAnswered (s : State) : Prop :=
  ∀ n t, drive n s = .next t → t.ReadsInput →
    (∃ b, t.takeReadAnswer.1 = .byte b) ∨ ∃ e, t.takeReadAnswer.1 = .failed e

/-- The second assumption of R148: "the host keeps calling `step()` (no cancellation)". -/
abbrev HostCalls.KeepsCalling (c : HostCalls) : Prop := ∀ n, c.allow n = true

/-- The two assumptions on which a claim that a program terminates rests (R148): a statement with `State.EndsIn` in
its conclusion has them as its premise. -/
abbrev State.TerminationAssumptions (s : State) (c : HostCalls) : Prop := s.EveryReadAnswered ∧ c.KeepsCalling

/-- `c` is the flag of the Word `v`: "0 → Z; 1..32767 → P; 32768..65535 → N" (R85). -/
abbrev FlagIs (v : Word) (c : Cond) : Prop :=
  (c = .z ↔ v.toNat = 0) ∧ (c = .p ↔ 1 ≤ v.toNat ∧ v.toNat ≤ 32767) ∧ (c = .n ↔ 32768 ≤ v.toNat)

/-- Every general register not listed holds what it held. -/
abbrev KeepsRegs (changed : List Reg) (s t : State) : Prop := ∀ r, r ∉ changed → t.reg r = s.reg r

/-- Every Word of memory holds what it held. -/
abbrev KeepsMem (s t : State) : Prop := ∀ a, t.mem.read a = s.mem.read a

/-- Every Word of memory but the one at `here` holds what it held. -/
abbrev KeepsMemBut (here : Word) (s t : State) : Prop := ∀ a, a ≠ here → t.mem.read a = s.mem.read a

/-- No I/O call was made and no answer used up. -/
abbrev KeepsIo (s t : State) : Prop :=
  t.ioLog = s.ioLog ∧ t.readAnswers = s.readAnswers ∧ t.writeAnswers = s.writeAnswers

/-- The parameters and the launch's stage, which no effect changes. -/
abbrev KeepsLaunch (s t : State) : Prop := t.params = s.params ∧ t.stage = s.stage

/-- `t` differs from `s` in the registers listed at most, of all that the spec gives the machine. -/
abbrev OnlyRegs (changed : List Reg) (s t : State) : Prop :=
  KeepsRegs changed s t ∧ t.pc = s.pc ∧ t.cond = s.cond ∧ KeepsMem s t ∧ t.status = s.status ∧ KeepsIo s t ∧
    KeepsLaunch s t

/-- `t` differs from `s` in DR and in COND, which holds the flag of DR's new value (R86), at most. -/
abbrev OnlyDrAndFlag (dr : Reg) (s t : State) : Prop :=
  KeepsRegs [dr] s t ∧ FlagIs (t.reg dr) t.cond ∧ t.pc = s.pc ∧ KeepsMem s t ∧ t.status = s.status ∧ KeepsIo s t ∧
    KeepsLaunch s t

/-- `t` differs from `s` in the Word at `here` at most. -/
abbrev OnlyWord (here : Word) (s t : State) : Prop :=
  KeepsMemBut here s t ∧ KeepsRegs [] s t ∧ t.pc = s.pc ∧ t.cond = s.cond ∧ t.status = s.status ∧ KeepsIo s t ∧
    KeepsLaunch s t

/-- `t` differs from `s` in PC and in the registers listed at most. -/
abbrev OnlyPcAndRegs (changed : List Reg) (s t : State) : Prop :=
  KeepsRegs changed s t ∧ t.cond = s.cond ∧ KeepsMem s t ∧ t.status = s.status ∧ KeepsIo s t ∧ KeepsLaunch s t

/-- `t` differs from `s` in R7, which holds the return address, in the registers listed and in what the I/O calls and
the run's end change, at most: what every trap service leaves alone (R110, R118, R119). -/
abbrev TrapFrame (changed : List Reg) (s t : State) : Prop :=
  t.reg .r7 = s.pc ∧ KeepsRegs (.r7 :: changed) s t ∧ t.pc = s.pc ∧ t.cond = s.cond ∧ KeepsMem s t ∧ KeepsLaunch s t

/-- `ea` is `base + offset`, modulo 65536, the offset being signed (R9, R10, R36). -/
abbrev IsSum (ea base : Word) (offset : Int) : Prop := (ea.toNat : Int) = ((base.toNat : Int) + offset) % 65536

/-- The instructions whose rules apply the flag update (R86), with their destination register. -/
def flagDest : Instr → Option Reg
  | .addReg dr _ _ => some dr
  | .addImm dr _ _ => some dr
  | .andReg dr _ _ => some dr
  | .andImm dr _ _ => some dr
  | .not dr _ => some dr
  | .ld dr _ => some dr
  | .ldi dr _ => some dr
  | .ldr dr _ _ => some dr
  | .lea dr _ => some dr
  | .st _ _ => none
  | .sti _ _ => none
  | .str _ _ _ => none
  | .br _ _ _ _ => none
  | .jmp _ => none
  | .jsr _ => none
  | .jsrr _ => none
  | .rti => none
  | .trap _ => none
  | .reserved1101 _ => none

/-- The general registers an instruction may write: its DR, or the implicit writes of R22. -/
def writtenRegs : Instr → List Reg
  | .jsr _ => [.r7]
  | .jsrr _ => [.r7]
  | .trap v => if v = 0x20#8 then [.r7, .r0] else [.r7]
  | .st _ _ => []
  | .sti _ _ => []
  | .str _ _ _ => []
  | .br _ _ _ _ => []
  | .jmp _ => []
  | .rti => []
  | .reserved1101 _ => []
  | .addReg dr _ _ => [dr]
  | .addImm dr _ _ => [dr]
  | .andReg dr _ _ => [dr]
  | .andImm dr _ _ => [dr]
  | .not dr _ => [dr]
  | .ld dr _ => [dr]
  | .ldi dr _ => [dr]
  | .ldr dr _ _ => [dr]
  | .lea dr _ => [dr]

/-- The address an instruction stores to, where it stores (R38), by the operand form its meaning uses. -/
def storeAddress (s : State) : Instr → Option Word
  | .st _ off9 => some (pcRelative off9 s)
  | .sti _ off9 => some (indirect off9 s)
  | .str _ base off6 => some (basePlus base off6 s)
  | .addReg _ _ _ => none
  | .addImm _ _ _ => none
  | .andReg _ _ _ => none
  | .andImm _ _ _ => none
  | .not _ _ => none
  | .ld _ _ => none
  | .ldi _ _ => none
  | .ldr _ _ _ => none
  | .lea _ _ => none
  | .br _ _ _ _ => none
  | .jmp _ => none
  | .jsr _ => none
  | .jsrr _ => none
  | .rti => none
  | .trap _ => none
  | .reserved1101 _ => none

/-- The register a store stores. -/
def storedReg : Instr → Option Reg
  | .st sr _ => some sr
  | .sti sr _ => some sr
  | .str sr _ _ => some sr
  | .addReg _ _ _ => none
  | .addImm _ _ _ => none
  | .andReg _ _ _ => none
  | .andImm _ _ _ => none
  | .not _ _ => none
  | .ld _ _ => none
  | .ldi _ _ => none
  | .ldr _ _ _ => none
  | .lea _ _ => none
  | .br _ _ _ _ => none
  | .jmp _ => none
  | .jsr _ => none
  | .jsrr _ => none
  | .rti => none
  | .trap _ => none
  | .reserved1101 _ => none

/-- The PC after the step, by R24's table, for an instruction of a Word at address `a` run in `s`; `none` where the
table has no row (the reserved opcode is no instruction). -/
def pcAfter (a : Word) (s : State) : Instr → Option Word
  | .addReg _ _ _ => some (a + 1#16)
  | .addImm _ _ _ => some (a + 1#16)
  | .andReg _ _ _ => some (a + 1#16)
  | .andImm _ _ _ => some (a + 1#16)
  | .not _ _ => some (a + 1#16)
  | .ld _ _ => some (a + 1#16)
  | .ldi _ _ => some (a + 1#16)
  | .ldr _ _ _ => some (a + 1#16)
  | .lea _ _ => some (a + 1#16)
  | .st _ _ => some (a + 1#16)
  | .sti _ _ => some (a + 1#16)
  | .str _ _ _ => some (a + 1#16)
  | .br n z p off9 =>
    some (if (n = true ∧ s.cond = .n) ∨ (z = true ∧ s.cond = .z) ∨ (p = true ∧ s.cond = .p)
      then a + 1#16 + off9.signExtend 16 else a + 1#16)
  | .jmp base => some (s.reg base)
  | .jsr off11 => some (a + 1#16 + off11.signExtend 16)
  | .jsrr base => some (if base = .r7 ∧ s.params.jsrrLinkFirst = true then a + 1#16 else s.reg base)
  | .rti => some (a + 1#16)
  | .trap _ => some (a + 1#16)
  | .reserved1101 _ => none

/-- A known opcode whose fixed fields are not at their fixed values, by the masks of R70. -/
def wrongFixedFields (w : Word) : Bool :=
  (w &&& 0xF020#16 == 0x1000#16 && w &&& 0x0018#16 != 0#16) ||
  (w &&& 0xF020#16 == 0x5000#16 && w &&& 0x0018#16 != 0#16) ||
  (w &&& 0xF000#16 == 0x9000#16 && w &&& 0x003F#16 != 0x003F#16) ||
  (w &&& 0xF000#16 == 0xC000#16 && w &&& 0x0E3F#16 != 0#16) ||
  (w &&& 0xF800#16 == 0x4000#16 && w &&& 0x063F#16 != 0#16) ||
  (w &&& 0xF000#16 == 0xF000#16 && w &&& 0x0F00#16 != 0#16) ||
  (w &&& 0xF000#16 == 0x8000#16 && w &&& 0x0FFF#16 != 0#16)

/-- The Word with its fixed fields put to their fixed values, by the masks of R70. -/
def withFixedFields (w : Word) : Word :=
  if w &&& 0xF020#16 = 0x1000#16 then w &&& 0xFFE7#16
  else if w &&& 0xF020#16 = 0x5000#16 then w &&& 0xFFE7#16
  else if w &&& 0xF000#16 = 0x9000#16 then w ||| 0x003F#16
  else if w &&& 0xF000#16 = 0xC000#16 then w &&& 0xF1C0#16
  else if w &&& 0xF800#16 = 0x4000#16 then w &&& 0xF9C0#16
  else if w &&& 0xF000#16 = 0xF000#16 then w &&& 0xF0FF#16
  else if w &&& 0xF000#16 = 0x8000#16 then 0x8000#16
  else w

/-- The recognised trap vectors (R111). -/
def recognisedVectors : List Byte := [0x20#8, 0x21#8, 0x22#8, 0x25#8]

/-- The state of an ended run is the one its rule describes (R115, R123, R124, R125): R7 and PC hold the return
address after a halt or a fault of TRAP, and a decode fault leaves PC at the Word it names. -/
def State.endPrecise (s : State) : Bool :=
  match s.status with
  | .running => true
  | .halted => decide (s.reg .r7 = s.pc)
  | .failed (.decode w a) =>
    decide (s.pc = a) && decide (s.mem.read a = w) &&
      (match decode s.params.strictFields w with
        | .error _ => true
        | .ok _ => false)
  | .failed (.io _) => decide (s.reg .r7 = s.pc)
  | .failed (.unsupported .rti) => true
  | .failed (.unsupported (.trapVector v)) => decide (s.reg .r7 = s.pc) && decide (v ∉ recognisedVectors)

/-- The invariant of the machine: memory is in its canonical form, the I/O record is legal, an ended run ended as its
rule says, and no run has ended before its first step. -/
abbrev State.Inv (s : State) : Prop :=
  s.mem.wf = true ∧ s.ioLog.all IoEvent.legal = true ∧ s.endPrecise = true ∧
    (s.stage ≠ .started → s.status = .running)

end Sys2Proof.Machine
end

