-- ==== Sys2Proof/Certificates/Slice0/Obligations.lean ====
section
/-! DEFINITION. The statements for the provers. Each says, in its docstring, which rules of spec/ it formalises. An
effect is run with `pc` at A + 1 (R83, R84), so a statement about `exec` that keeps `pc` says that the step leaves PC at
A + 1. -/

open Sys2Proof Sys2Proof.Machine

/-! ### Encoding (spec/30_encoding.md) -/

/-- Words written out bit by bit from the formats R56 to R66 are the instructions they stand for; the first two are the
source's own patterns. -/
def Obligations.WrittenOutWordsDecode : Prop :=
  decode true 0b0001000001000010#16 = .ok (.addReg .r0 .r1 .r2) ∧
  decode true 0b1111000000100101#16 = .ok (.trap 0x25#8) ∧
  decode true 0b1001100101111111#16 = .ok (.not .r4 .r5) ∧
  decode true 0b0110100101111111#16 = .ok (.ldr .r4 .r5 0b111111#6) ∧
  decode true 0b0000101000000010#16 = .ok (.br true false true 2#9) ∧
  decode true 0b0100100000010000#16 = .ok (.jsr 16#11) ∧
  decode true 0b0100000011000000#16 = .ok (.jsrr .r3) ∧
  decode true 0b1101000000000000#16 = .error (.reservedOpcode 0xD000#16) ∧
  decode true 0b1100000111000001#16 = .error (.fixedFields 0xC1C1#16)

/-- R72: encoding an instruction and decoding the Word gives the instruction back, whatever `STRICT_FIELDS`; and with
`STRICT_FIELDS` every Word that decodes is the encoding of what it decodes to. -/
def Obligations.DecodeAndEncodeAgree : Prop :=
  (∀ (strict : Bool) (i : Instr), i.WellFormed → decode strict (encode i) = .ok i) ∧
    ∀ (w : Word) (i : Instr), decode true w = .ok i → encode i = w

/-- R67, R70: the Words with no decoding. With `STRICT_FIELDS` they are those of opcode 1101 and those with wrong fixed
fields; without it those of opcode 1101 alone, and every other Word decodes as it would with its fixed fields right. -/
def Obligations.DecodeErrorsExactly : Prop :=
  (∀ w : Word, (∃ e, decode true w = .error e) ↔ w &&& 0xF000#16 = 0xD000#16 ∨ wrongFixedFields w = true) ∧
  (∀ w : Word, (∃ e, decode false w = .error e) ↔ w &&& 0xF000#16 = 0xD000#16) ∧
  ∀ w : Word, w &&& 0xF000#16 ≠ 0xD000#16 → decode false w = decode true (withFixedFields w)

/-- R71: what the decoder gives is always an instruction of the machine. -/
def Obligations.DecoderGivesWellFormed : Prop :=
  ∀ (strict : Bool) (w : Word) (i : Instr), decode strict w = .ok i → i.WellFormed

/-- R10: `sext_N` copies the low N bits and fills the others with bit N-1; `zext_N` fills them with zero. -/
def Obligations.ExtensionBits : Prop :=
  ∀ (n : Nat) (v : BitVec n) (k : Nat), 0 < n → n ≤ 16 → k < 16 →
    (sext v).getLsbD k = (if k < n then v.getLsbD k else v.getLsbD (n - 1)) ∧
    (zext v).getLsbD k = (if k < n then v.getLsbD k else false)

/-- Derived from R10, R68: a sign-extended field of N bits keeps its two's-complement value, which lies in -2^(N-1) to
2^(N-1) - 1: imm5 in -16 to 15, offset6 in -32 to 31, PCoffset9 in -256 to 255, PCoffset11 in -1024 to 1023. -/
def Obligations.ImmediateRanges : Prop :=
  ∀ (n : Nat) (v : BitVec n), 0 < n → n ≤ 16 →
    (sext v).toInt = v.toInt ∧ -((2 : Int) ^ (n - 1)) ≤ (sext v).toInt ∧ (sext v).toInt ≤ (2 : Int) ^ (n - 1) - 1

/-- Derived from R36, R84: the effective addresses are sums modulo 65536, from PC (A + 1 during an effect) or from a
base register, with a signed offset. -/
def Obligations.EffectiveAddressesWrap : Prop :=
  ∀ (s : State) (off9 : BitVec 9) (off11 : BitVec 11) (base : Reg) (off6 : BitVec 6),
    IsSum (pcRelative off9 s) s.pc off9.toInt ∧ IsSum (pcRelative off11 s) s.pc off11.toInt ∧
      IsSum (basePlus base off6 s) (s.reg base) off6.toInt

/-! ### Launch (spec/70_reset_and_hazards.md) -/

/-- R139: `init()` sets PC to `RESET_PC`, COND to Z and the run status to Running; R140: and it writes nothing else. -/
def Obligations.InitSetsPcCondStatus : Prop :=
  ∀ s : State, s.stage = .created →
    ∃ t, initOnce s = .next t ∧ t.pc = s.params.resetPc ∧ t.cond = .z ∧ t.status = .running ∧ t.stage = .initialised ∧
      t.regs = s.regs ∧ t.mem = s.mem ∧ t.params = s.params ∧ KeepsIo s t

/-- R142: a step before `init()`, and a second `init()`, have no meaning. -/
def Obligations.InitExactlyOnce : Prop :=
  (∀ s : State, s.stage = .created → step s = .refused .notInitialised) ∧
    ∀ s : State, s.stage ≠ .created → initOnce s = .refused .alreadyInitialised

/-- Derived from R33, R139: the state after reset is `init()`'s, with PC at the spec's default `RESET_PC` and COND Z.
R0 to R7 and memory are the model's choice (notes/assumptions/2.md, 3.md), the parameters' values the spec's defaults
(notes/assumptions/1.md). -/
def Obligations.ResetIsInitOfTheEmptyLaunch : Prop :=
  initOnce (State.created Params.specDefault RegFile.zero [] [] []) = .next State.reset ∧
    State.reset.pc = 0x3000#16 ∧ State.reset.cond = .z ∧ State.reset.status = .running

/-- Derived from R92, D18: the host writes registers and memory until the first step, PC and COND until `init()`, and
nothing afterwards; a write changes the place it names only. -/
def Obligations.HostWritesBeforeTheFirstStep : Prop :=
  (∀ (s : State) (r : Reg) (v : Word), s.stage ≠ .started →
    ∃ t, hostWrite (.reg r v) s = .next t ∧ t.reg r = v ∧ OnlyRegs [r] s t) ∧
  (∀ (s : State) (a v : Word), s.stage ≠ .started →
    ∃ t, hostWrite (.mem a v) s = .next t ∧ t.mem.read a = v ∧ OnlyWord a s t) ∧
  (∀ (s : State) (v : Word) (c : Cond), s.stage = .created →
    hostWrite (.pc v) s = .next { s with pc := v } ∧ hostWrite (.cond c) s = .next { s with cond := c }) ∧
  (∀ (s : State) (v : Word) (c : Cond), s.stage ≠ .created →
    hostWrite (.pc v) s = .refused .hostWriteTooLate ∧ hostWrite (.cond c) s = .refused .hostWriteTooLate) ∧
  ∀ (s : State) (h : HostWrite), s.stage = .started → hostWrite h s = .refused .hostWriteTooLate

/-- Derived from R11, R20, R28: the 10 register slots as the host reads them. COND's numbers are the convention of
notes/assumptions/10.md. -/
def Obligations.HostReadsTheTenSlots : Prop :=
  ∀ s : State, (∀ r, s.readSlot (.general r) = s.reg r) ∧ s.readSlot .pc = s.pc ∧
    (s.readSlot .cond = 0x0001#16 ↔ s.cond = .p) ∧ (s.readSlot .cond = 0x0002#16 ↔ s.cond = .z) ∧
      (s.readSlot .cond = 0x0004#16 ↔ s.cond = .n)

/-! ### The step and the run (spec/40_execution_cycle.md) -/

/-- R83: where a step is defined, it fetches the Word at PC and decodes it; without a decoding it raises `Decode(w, A)`
and writes nothing else; else PC becomes A + 1 and the step is the instruction's effect. The step also notes that the
run has begun (`stage`, the model's record of R92). -/
def Obligations.StepRunsTheDecodedInstruction : Prop :=
  ∀ s : State, s.MayStep →
    (∀ i, decode s.params.strictFields (s.mem.read s.pc) = .ok i →
      step s = exec i { s with pc := s.pc + 1#16, stage := .started }) ∧
    ∀ e, decode s.params.strictFields (s.mem.read s.pc) = .error e →
      step s = .next { s with status := .failed (.decode (s.mem.read s.pc) s.pc), stage := .started }

/-- R80, R123: a fetched Word of opcode 1101 or, with `STRICT_FIELDS`, with wrong fixed fields ends the run with
`Decode(w, A)`; PC is A and every register, COND and memory are unchanged. -/
def Obligations.DecodeFaultLeavesEverything : Prop :=
  ∀ s : State, s.MayStep →
    (s.mem.read s.pc &&& 0xF000#16 = 0xD000#16 ∨
      (s.params.strictFields = true ∧ wrongFixedFields (s.mem.read s.pc) = true)) →
    ∃ t, step s = .next t ∧ t.status = .failed (.decode (s.mem.read s.pc) s.pc) ∧ t.pc = s.pc ∧ t.regs = s.regs ∧
      t.cond = s.cond ∧ t.mem = s.mem ∧ KeepsIo s t

/-- R78: a step is defined only after `init()` and while the run status is Running. -/
def Obligations.StepDefinedOnlyWhileRunning : Prop :=
  ∀ s : State,
    (s.stage = .created → step s = .refused .notInitialised) ∧
    (s.stage ≠ .created → s.status ≠ .running → step s = .refused .runEnded) ∧
    ∀ t, step s = .next t → s.MayStep

/-- R89: a step halts the run exactly if it runs the halt trap, and from a run that has ended there is no step. -/
def Obligations.OnlyTheHaltTrapHalts : Prop :=
  (∀ s t : State, step s = .next t →
    (t.status = .halted ↔ decode s.params.strictFields (s.mem.read s.pc) = .ok (.trap 0x25#8))) ∧
  ∀ s t : State, s.Succeeded ∨ s.Failed → step s ≠ .next t

/-- R88: the driver loop. A step that continues loops again; a halted or failed run stops at once, as it is. -/
def Obligations.DriverLoopsUntilTheEnd : Prop :=
  (∀ (n : Nat) (s t : State), s.status = .running → step s = .next t → drive (n + 1) s = drive n t) ∧
  ∀ (n : Nat) (s : State), s.Succeeded ∨ s.Failed → drive n s = .next s

/-! ### Condition codes -/

/-- R85: the flag update sets the one flag of the Word, read as a signed number, and nothing else. -/
def Obligations.FlagUpdateFollowsTheSign : Prop :=
  ∀ (s : State) (v : Word), FlagIs v (s.setcc v).cond ∧ s.setcc v = { s with cond := (s.setcc v).cond }

/-- R86: ADD, AND, NOT, LD, LDI, LDR and LEA leave the flag of the value now in DR, even when DR was a source; every
other instruction, and every trap service, leaves COND alone. -/
def Obligations.FlagsFollowDrOrStay : Prop :=
  ∀ (i : Instr) (s t : State), exec i s = .next t →
    (∀ dr, flagDest i = some dr → FlagIs (t.reg dr) t.cond) ∧ (flagDest i = none → t.cond = s.cond)

/-! ### Operate instructions (spec/41_operate.md) -/

/-- R93: ADD, register form. -/
def Obligations.AddRegisterResult : Prop :=
  ∀ dr sr1 sr2 : Reg,
    (∀ strict, decode strict (0b0001#4 ++ dr.bits ++ sr1.bits ++ 0b000#3 ++ sr2.bits) = .ok (.addReg dr sr1 sr2)) ∧
    ∀ s : State, ∃ t, exec (.addReg dr sr1 sr2) s = .next t ∧
      (t.reg dr).toNat = ((s.reg sr1).toNat + (s.reg sr2).toNat) % 65536 ∧ OnlyDrAndFlag dr s t

/-- R94: ADD, immediate form. -/
def Obligations.AddImmediateResult : Prop :=
  ∀ (dr sr1 : Reg) (imm5 : BitVec 5),
    (∀ strict, decode strict (0b0001#4 ++ dr.bits ++ sr1.bits ++ 0b1#1 ++ imm5) = .ok (.addImm dr sr1 imm5)) ∧
    ∀ s : State, ∃ t, exec (.addImm dr sr1 imm5) s = .next t ∧
      IsSum (t.reg dr) (s.reg sr1) imm5.toInt ∧ OnlyDrAndFlag dr s t

/-- R95: AND, register form. -/
def Obligations.AndRegisterResult : Prop :=
  ∀ dr sr1 sr2 : Reg,
    (∀ strict, decode strict (0b0101#4 ++ dr.bits ++ sr1.bits ++ 0b000#3 ++ sr2.bits) = .ok (.andReg dr sr1 sr2)) ∧
    ∀ s : State, ∃ t, exec (.andReg dr sr1 sr2) s = .next t ∧
      (∀ k, (t.reg dr).getLsbD k = ((s.reg sr1).getLsbD k && (s.reg sr2).getLsbD k)) ∧ OnlyDrAndFlag dr s t

/-- R96: AND, immediate form; the immediate is sign-extended before the AND. -/
def Obligations.AndImmediateResult : Prop :=
  ∀ (dr sr1 : Reg) (imm5 : BitVec 5),
    (∀ strict, decode strict (0b0101#4 ++ dr.bits ++ sr1.bits ++ 0b1#1 ++ imm5) = .ok (.andImm dr sr1 imm5)) ∧
    ∀ s : State, ∃ t, exec (.andImm dr sr1 imm5) s = .next t ∧
      (∀ k, (t.reg dr).getLsbD k =
        ((s.reg sr1).getLsbD k && (if k < 5 then imm5.getLsbD k else decide (k < 16) && imm5.getLsbD 4))) ∧
      OnlyDrAndFlag dr s t

/-- R97: NOT. -/
def Obligations.NotResult : Prop :=
  ∀ dr sr : Reg,
    (∀ strict, decode strict (0b1001#4 ++ dr.bits ++ sr.bits ++ 0b111111#6) = .ok (.not dr sr)) ∧
    ∀ s : State, ∃ t, exec (.not dr sr) s = .next t ∧
      (t.reg dr).toNat = 65535 - (s.reg sr).toNat ∧ OnlyDrAndFlag dr s t

/-! ### Data movement (spec/42_data_movement.md) -/

/-- R98: LD loads the Word at A + 1 + PCoffset9. -/
def Obligations.LdResult : Prop :=
  ∀ (dr : Reg) (off9 : BitVec 9),
    (∀ strict, decode strict (0b0010#4 ++ dr.bits ++ off9) = .ok (.ld dr off9)) ∧
    ∀ s : State, ∃ t ea, exec (.ld dr off9) s = .next t ∧
      IsSum ea s.pc off9.toInt ∧ t.reg dr = s.mem.read ea ∧ OnlyDrAndFlag dr s t

/-- R99: LDI loads the Word whose address stands at A + 1 + PCoffset9. -/
def Obligations.LdiResult : Prop :=
  ∀ (dr : Reg) (off9 : BitVec 9),
    (∀ strict, decode strict (0b1010#4 ++ dr.bits ++ off9) = .ok (.ldi dr off9)) ∧
    ∀ s : State, ∃ t ea, exec (.ldi dr off9) s = .next t ∧
      IsSum ea s.pc off9.toInt ∧ t.reg dr = s.mem.read (s.mem.read ea) ∧ OnlyDrAndFlag dr s t

/-- R100: LDR loads the Word at the base register plus offset6, the base read before DR is written. -/
def Obligations.LdrResult : Prop :=
  ∀ (dr base : Reg) (off6 : BitVec 6),
    (∀ strict, decode strict (0b0110#4 ++ dr.bits ++ base.bits ++ off6) = .ok (.ldr dr base off6)) ∧
    ∀ s : State, ∃ t ea, exec (.ldr dr base off6) s = .next t ∧
      IsSum ea (s.reg base) off6.toInt ∧ t.reg dr = s.mem.read ea ∧ OnlyDrAndFlag dr s t

/-- R101: LEA gives DR the address itself, whatever memory holds, and the flags follow it. -/
def Obligations.LeaResult : Prop :=
  ∀ (dr : Reg) (off9 : BitVec 9),
    (∀ strict, decode strict (0b1110#4 ++ dr.bits ++ off9) = .ok (.lea dr off9)) ∧
    ∀ s : State, ∃ t, exec (.lea dr off9) s = .next t ∧
      IsSum (t.reg dr) s.pc off9.toInt ∧ OnlyDrAndFlag dr s t

/-- R102: ST stores SR at A + 1 + PCoffset9. -/
def Obligations.StResult : Prop :=
  ∀ (sr : Reg) (off9 : BitVec 9),
    (∀ strict, decode strict (0b0011#4 ++ sr.bits ++ off9) = .ok (.st sr off9)) ∧
    ∀ s : State, ∃ t, exec (.st sr off9) s = .next t ∧
      IsSum (pcRelative off9 s) s.pc off9.toInt ∧ t.mem.read (pcRelative off9 s) = s.reg sr ∧
      OnlyWord (pcRelative off9 s) s t

/-- R103: STI stores SR at the address that stands at A + 1 + PCoffset9, the pointer read before the store. -/
def Obligations.StiResult : Prop :=
  ∀ (sr : Reg) (off9 : BitVec 9),
    (∀ strict, decode strict (0b1011#4 ++ sr.bits ++ off9) = .ok (.sti sr off9)) ∧
    ∀ s : State, ∃ t, exec (.sti sr off9) s = .next t ∧
      IsSum (pcRelative off9 s) s.pc off9.toInt ∧ indirect off9 s = s.mem.read (pcRelative off9 s) ∧
      t.mem.read (indirect off9 s) = s.reg sr ∧ OnlyWord (indirect off9 s) s t

/-- R104: STR stores SR at the base register plus offset6. -/
def Obligations.StrResult : Prop :=
  ∀ (sr base : Reg) (off6 : BitVec 6),
    (∀ strict, decode strict (0b0111#4 ++ sr.bits ++ base.bits ++ off6) = .ok (.str sr base off6)) ∧
    ∀ s : State, ∃ t, exec (.str sr base off6) s = .next t ∧
      IsSum (basePlus base off6 s) (s.reg base) off6.toInt ∧ t.mem.read (basePlus base off6 s) = s.reg sr ∧
      OnlyWord (basePlus base off6 s) s t

/-! ### Control transfer (spec/43_control.md) -/

/-- R105: BR goes to A + 1 + PCoffset9 if COND is a flag it selects, and else leaves PC at A + 1. -/
def Obligations.BrResult : Prop :=
  ∀ (n z p : Bool) (off9 : BitVec 9),
    (∀ strict, decode strict (0b0000#4 ++ BitVec.ofBool n ++ BitVec.ofBool z ++ BitVec.ofBool p ++ off9) =
      .ok (.br n z p off9)) ∧
    ∀ s : State, ∃ t, exec (.br n z p off9) s = .next t ∧
      (if (n = true ∧ s.cond = .n) ∨ (z = true ∧ s.cond = .z) ∨ (p = true ∧ s.cond = .p)
        then IsSum t.pc s.pc off9.toInt else t.pc = s.pc) ∧
      OnlyPcAndRegs [] s t

/-- R106: JMP goes to the address in the base register, any of the eight (R7: RET). -/
def Obligations.JmpResult : Prop :=
  ∀ base : Reg,
    (∀ strict, decode strict (0b1100#4 ++ 0b000#3 ++ base.bits ++ 0b000000#6) = .ok (.jmp base)) ∧
    ∀ s : State, ∃ t, exec (.jmp base) s = .next t ∧ t.pc = s.reg base ∧ OnlyPcAndRegs [] s t

/-- R107: JSR leaves A + 1 in R7 and goes to A + 1 + PCoffset11. -/
def Obligations.JsrResult : Prop :=
  ∀ off11 : BitVec 11,
    (∀ strict, decode strict (0b0100#4 ++ 0b1#1 ++ off11) = .ok (.jsr off11)) ∧
    ∀ s : State, ∃ t, exec (.jsr off11) s = .next t ∧ t.reg .r7 = s.pc ∧ IsSum t.pc s.pc off11.toInt ∧
      OnlyPcAndRegs [.r7] s t

/-- R108: JSRR leaves A + 1 in R7 and goes to the address in the base register; for R7 itself that is A + 1 with
`JSRR_LINK_FIRST` and the old R7 without. -/
def Obligations.JsrrResult : Prop :=
  ∀ base : Reg,
    (∀ strict, decode strict (0b0100#4 ++ 0b0#1 ++ 0b00#2 ++ base.bits ++ 0b000000#6) = .ok (.jsrr base)) ∧
    ∀ s : State, ∃ t, exec (.jsrr base) s = .next t ∧ t.reg .r7 = s.pc ∧
      (if base = .r7 ∧ s.params.jsrrLinkFirst = true then t.pc = s.pc else t.pc = s.reg base) ∧
      OnlyPcAndRegs [.r7] s t

/-- R109: RTI, the Word 0x8000, always raises `Unsupported(RTI)`, and nothing else is changed. -/
def Obligations.RtiAlwaysUnsupported : Prop :=
  (∀ strict, decode strict 0x8000#16 = .ok .rti) ∧
    ∀ s : State, exec .rti s = .next { s with status := .failed (.unsupported .rti) }

/-! ### TRAP (spec/44_trap.md) -/

/-- R112: GETC with the host's answer known. A byte goes to R0, zero-extended, and is not echoed; a failure leaves R0
alone and ends the run; with no answer ever, the step has no outcome. -/
def Obligations.GetcFollowsTheAnswer : Prop :=
  ∀ (s : State) (rest : List ReadAnswer),
    (∀ b : Byte, s.readAnswers = .byte b :: rest →
      ∃ t, exec (.trap 0x20#8) s = .next t ∧ (t.reg .r0).toNat = b.toNat ∧ TrapFrame [.r0] s t ∧
        t.status = s.status ∧ t.ioLog = s.ioLog ++ [.readByte b] ∧ t.output = s.output ∧ t.readAnswers = rest ∧
        t.writeAnswers = s.writeAnswers) ∧
    (∀ e : IoError, s.readAnswers = .failed e :: rest →
      ∃ t, exec (.trap 0x20#8) s = .next t ∧ t.status = .failed (.io e) ∧ TrapFrame [] s t ∧
        t.ioLog = s.ioLog ++ [.readFailed e] ∧ t.output = s.output ∧ t.readAnswers = rest ∧
        t.writeAnswers = s.writeAnswers) ∧
    (s.readAnswers = .never :: rest → exec (.trap 0x20#8) s = .fault .inputNeverAnswered)

/-- R113: OUT writes the low byte of R0, whatever R0's high byte; by the host's answer it goes on, or ends the run with
the byte output or not. -/
def Obligations.OutFollowsTheAnswer : Prop :=
  ∀ (s : State) (rest : List WriteAnswer) (b : Byte), b.toNat = (s.reg .r0).toNat % 256 →
    (s.writeAnswers = .accepted :: rest →
      ∃ t, exec (.trap 0x21#8) s = .next t ∧ TrapFrame [] s t ∧ t.status = s.status ∧
        t.ioLog = s.ioLog ++ [.wrote (.byte b)] ∧ t.output = s.output ++ [b] ∧ t.writeAnswers = rest ∧
        t.readAnswers = s.readAnswers) ∧
    ∀ (e : IoError) (n : Nat), s.writeAnswers = .failed e n :: rest →
      ∃ t, exec (.trap 0x21#8) s = .next t ∧ TrapFrame [] s t ∧ t.status = .failed (.io e) ∧
        t.ioLog = s.ioLog ++ [.writeFailed (.byte b) e ([b].take n)] ∧ t.output = s.output ++ [b].take n ∧
        t.writeAnswers = rest ∧ t.readAnswers = s.readAnswers

/-- R114, R44: PUTS with the first zero Word `n` Words from the address in R0. It writes, in one call, the low bytes of
the `n` Words before it, the addresses wrapping; by the host's answer it goes on, or ends the run with a prefix
output. -/
def Obligations.PutsWritesTheString : Prop :=
  ∀ (s : State) (rest : List WriteAnswer) (n : Nat), n < 65536 →
    (∀ k, k < n → s.mem.read (s.reg .r0 + BitVec.ofNat 16 k) ≠ 0#16) →
    s.mem.read (s.reg .r0 + BitVec.ofNat 16 n) = 0#16 →
    ∃ l : List Byte, l.length = n ∧
      (∀ k, k < n → ∃ b, l[k]? = some b ∧ b.toNat = (s.mem.read (s.reg .r0 + BitVec.ofNat 16 k)).toNat % 256) ∧
      (s.writeAnswers = .accepted :: rest →
        ∃ t, exec (.trap 0x22#8) s = .next t ∧ TrapFrame [] s t ∧ t.status = s.status ∧
          t.ioLog = s.ioLog ++ [.wrote (.bytes l)] ∧ t.output = s.output ++ l ∧ t.writeAnswers = rest ∧
          t.readAnswers = s.readAnswers) ∧
      ∀ (e : IoError) (m : Nat), s.writeAnswers = .failed e m :: rest →
        ∃ t, exec (.trap 0x22#8) s = .next t ∧ TrapFrame [] s t ∧ t.status = .failed (.io e) ∧
          t.ioLog = s.ioLog ++ [.writeFailed (.bytes l) e (l.take m)] ∧ t.output = s.output ++ l.take m ∧
          t.writeAnswers = rest ∧ t.readAnswers = s.readAnswers

/-- R116: PUTS is stuck exactly if no address of the whole memory holds a zero Word. -/
def Obligations.PutsStuckExactlyWithoutZeroWord : Prop :=
  ∀ s : State, exec (.trap 0x22#8) s = .fault .putsNeverEnds ↔ ∀ a : Word, s.mem.read a ≠ 0#16

/-- R115: HALT ends the run with Halted; R7 holds A + 1, nothing else changes and nothing is output. -/
def Obligations.HaltResult : Prop :=
  ∀ s : State, ∃ t, exec (.trap 0x25#8) s = .next t ∧ t.status = .halted ∧ TrapFrame [] s t ∧ KeepsIo s t

/-- R117: any other vector ends the run with `Unsupported(TrapVector v)`; R7 holds A + 1 and nothing else changes. -/
def Obligations.OtherVectorsUnsupported : Prop :=
  ∀ v : Byte, v ∉ recognisedVectors →
    ∀ s : State, ∃ t, exec (.trap v) s = .next t ∧ t.status = .failed (.unsupported (.trapVector v)) ∧
      TrapFrame [] s t ∧ KeepsIo s t

/-- Derived from R65, R110, R118, R119: a TRAP Word carries its vector; TRAP writes R7 before its service, for every
vector; and no service moves PC, writes COND or memory, or any register but R0, which GETC alone writes. -/
def Obligations.EveryTrapLinksR7 : Prop :=
  ∀ v : Byte,
    (∀ strict, decode strict (0b1111#4 ++ 0b0000#4 ++ v) = .ok (.trap v)) ∧
    ∀ s t : State, exec (.trap v) s = .next t → TrapFrame (if v = 0x20#8 then [.r0] else []) s t

/-- R124: an I/O fault is raised by TRAP 0x20, 0x21 and 0x22 only, when the host's answer to its call is a failure, and
records the capability's error; PC and R7 hold A + 1, every other register, COND and memory are unchanged, and some
prefix of what was to be written has been output. -/
def Obligations.IoFaultState : Prop :=
  ∀ (i : Instr) (s t : State) (e : IoError), s.status = .running → exec i s = .next t → t.status = .failed (.io e) →
    TrapFrame [] s t ∧
      ((i = .trap 0x20#8 ∧ s.takeReadAnswer.1 = .failed e ∧ t.output = s.output) ∨
        ∃ n, s.takeWriteAnswer.1 = .failed e n ∧
          ((i = .trap 0x21#8 ∧ ∃ b : Byte, b.toNat = (s.reg .r0).toNat % 256 ∧ t.output = s.output ++ [b].take n) ∨
            (i = .trap 0x22#8 ∧ ∃ l, s.mem.readString (s.reg .r0) = some l ∧ t.output = s.output ++ l.take n)))

/-- The model's choice (notes/assumptions/5.md), derived from R92: where the state holds no answer to an I/O call, the
call gets the free value, as if the state held it. -/
def Obligations.MissingAnswersAreFree : Prop :=
  (∀ s : State, s.readAnswers = [] →
    exec (.trap 0x20#8) s = exec (.trap 0x20#8) { s with readAnswers := [Config.freeReadAnswer s.ioLog] }) ∧
  ∀ (s : State) (v : Byte), s.writeAnswers = [] → (v = 0x21#8 ∨ v = 0x22#8) →
    exec (.trap v) s = exec (.trap v) { s with writeAnswers := [Config.freeWriteAnswer s.ioLog] }

/-! ### The reserved opcode -/

/-- Derived from R67, R80: a Word of opcode 1101 has no decoding. The model's term for the table's row takes the decode
fault of that Word, with PC back at A, and that is what the step does where such a Word is fetched. -/
def Obligations.ReservedOpcodeIsADecodeFault : Prop :=
  ∀ low : BitVec 12,
    (∀ strict, decode strict (0b1101#4 ++ low) = .error (.reservedOpcode (0b1101#4 ++ low))) ∧
    (∀ s : State, exec (.reserved1101 low) s =
      .next { s with pc := s.pc - 1#16, status := .failed (.decode (0b1101#4 ++ low) (s.pc - 1#16)) }) ∧
    ∀ s : State, s.MayStep → s.mem.read s.pc = 0b1101#4 ++ low →
      step s = exec (.reserved1101 low) { s with pc := s.pc + 1#16, stage := .started }

/-! ### The whole machine -/

/-- R24: how each instruction leaves PC, and a Word that fails to decode. -/
def Obligations.PcAfterEveryStep : Prop :=
  ∀ s t : State, step s = .next t →
    (∀ i, decode s.params.strictFields (s.mem.read s.pc) = .ok i → pcAfter s.pc s i = some t.pc) ∧
    ∀ e, decode s.params.strictFields (s.mem.read s.pc) = .error e → t.pc = s.pc

/-- Derived from R38, R42, R46: ST, STI and STR write the one Word at the address of their operand form, and no other
instruction changes memory. -/
def Obligations.OnlyStoresChangeMemory : Prop :=
  ∀ (i : Instr) (s t : State), exec i s = .next t →
    (∀ a r, storeAddress s i = some a → storedReg i = some r → t.mem.read a = s.reg r ∧ KeepsMemBut a s t) ∧
    (storeAddress s i = none → t.mem = s.mem)

/-- Derived from R21, R22: an instruction writes the general register its DR field names, or R7 (JSR, JSRR, TRAP) and R0
(GETC), and no other. -/
def Obligations.OnlyNamedRegistersChange : Prop :=
  ∀ (i : Instr) (s t : State), exec i s = .next t → KeepsRegs (writtenRegs i) s t

/-- Derived from R7, R92, R141: no step changes a parameter, and after a step the run has begun. -/
def Obligations.StepsKeepTheParameters : Prop :=
  ∀ s t : State, step s = .next t → t.params = s.params ∧ t.stage = .started

/-- Derived from R34, R52: a step makes at most one I/O call, adds it at the record's end, makes none but in TRAP 0x20,
0x21 and 0x22, and uses the host's answers up in their order. -/
def Obligations.AtMostOneIoCallPerStep : Prop :=
  ∀ s t : State, step s = .next t →
    ∃ l : List IoEvent, l.length ≤ 1 ∧ t.ioLog = s.ioLog ++ l ∧
      (t.readAnswers = s.readAnswers ∨ ∃ a, s.readAnswers = a :: t.readAnswers) ∧
      (t.writeAnswers = s.writeAnswers ∨ ∃ a, s.writeAnswers = a :: t.writeAnswers) ∧
      (l ≠ [] → ∃ v, decode s.params.strictFields (s.mem.read s.pc) = .ok (.trap v) ∧
        (v = 0x20#8 ∨ v = 0x21#8 ∨ v = 0x22#8))

/-- R146: a store is seen by the next fetch from its address; a store into the storing instruction's own Word does not
change that instruction. -/
def Obligations.StoresAreSeenByTheNextFetch : Prop :=
  ∀ (s : State) (i : Instr) (a : Word) (r : Reg), s.MayStep →
    decode s.params.strictFields (s.mem.read s.pc) = .ok i →
    storeAddress { s with pc := s.pc + 1#16 } i = some a → storedReg i = some r →
    ∃ t, step s = .next t ∧ t.mem.read a = s.reg r ∧ t.pc = s.pc + 1#16 ∧
      (a = t.pc → ∀ j, decode s.params.strictFields (s.reg r) = .ok j → step t = exec j { t with pc := t.pc + 1#16 })

/-- R126: nothing else faults. A step that ends the run without success fetched a Word with no decoding, ran RTI or a
TRAP with an unrecognised vector, or made an I/O call that failed. -/
def Obligations.NothingElseFaults : Prop :=
  ∀ (s t : State) (e : TickError), step s = .next t → t.status = .failed e →
    (∃ d, decode s.params.strictFields (s.mem.read s.pc) = .error d ∧ e = .decode (s.mem.read s.pc) s.pc) ∨
    (decode s.params.strictFields (s.mem.read s.pc) = .ok .rti ∧ e = .unsupported .rti) ∨
    (∃ v, decode s.params.strictFields (s.mem.read s.pc) = .ok (.trap v) ∧ v ∉ recognisedVectors ∧
      e = .unsupported (.trapVector v)) ∨
    ∃ v k, decode s.params.strictFields (s.mem.read s.pc) = .ok (.trap v) ∧
      (v = 0x20#8 ∨ v = 0x21#8 ∨ v = 0x22#8) ∧ e = .io k

/-- Derived from R36, R116, R121, R126: a step that may be made has an outcome but in PUTS and GETC. -/
def Obligations.OnlyPutsAndGetcCanBeStuck : Prop :=
  ∀ s : State, s.MayStep →
    decode s.params.strictFields (s.mem.read s.pc) ≠ .ok (.trap 0x20#8) →
    decode s.params.strictFields (s.mem.read s.pc) ≠ .ok (.trap 0x22#8) →
    ∃ t, step s = .next t

/-- Derived from R46, R115, R120, R123 to R125: the invariant. Memory keeps its canonical form (the model's,
notes/assumptions/4.md), a failed output is a prefix of what was asked for, and an ended run's state is the one its rule
gives. -/
def Obligations.StepKeepsTheInvariant : Prop :=
  ∀ s t : State, s.Inv → step s = .next t → t.Inv

/-- The invariant holds along every run of the driver loop, from every state that meets it. -/
def Obligations.RunsKeepTheInvariant : Prop :=
  ∀ (n : Nat) (s t : State), s.Inv → drive n s = .next t → t.Inv

/-- The invariant holds at reset. -/
def Obligations.ResetMeetsTheInvariant : Prop :=
  State.reset.Inv

/-- The launch keeps the invariant: `init()`, and every host write it still lets happen. -/
def Obligations.LaunchKeepsTheInvariant : Prop :=
  (∀ s t : State, s.Inv → initOnce s = .next t → t.Inv) ∧
  ∀ (h : HostWrite) (s t : State), s.Inv → hostWrite h s = .next t → t.Inv

/-! ### What the end of a run rests on -/

/-- Derived from R121, R148: GETC's read is the one wait that the host decides. A run never waits there for ever exactly
if the host answers every read the run makes with a byte or a failure. -/
def Obligations.AnsweredReadsNeverWait : Prop :=
  ∀ s : State, s.EveryReadAnswered ↔ ∀ n, drive n s ≠ .fault .inputNeverAnswered

/-- Derived from R88, R91, R116, R121, R148: what the end of a run rests on. With both assumptions of R148 a launched run
ends, or PUTS scans a memory without a zero Word, or the run goes on for ever, still Running. Without the first, at a
read that the host never answers, the run does not end however often the host calls; without the second, cancelled
while still Running, it does not end either. -/
def Obligations.TerminationRestsOnTheHost : Prop :=
  (∀ (s : State) (c : HostCalls), s.stage ≠ .created → s.TerminationAssumptions c →
    (∃ t, s.EndsIn c t) ∨ (∃ n, drive n s = .fault .putsNeverEnds) ∨
      ∀ n, ∃ t, drive n s = .next t ∧ t.status = .running) ∧
  (∀ (s t : State) (n : Nat), drive n s = .next t → t.ReadsInput → t.takeReadAnswer.1 = .never →
    ∀ c u, ¬ s.EndsIn c u) ∧
  ∀ (s t : State) (n : Nat), drive n s = .next t → t.status = .running → ∀ u, ¬ s.EndsIn (.cancelsAfter n) u
end

