-- ==== Sys2Proof/Laws/State.lean ====
section
/-! SUPPORT. What each update of the state does to each field, and the register file's own law. -/

namespace Sys2Proof.Machine

@[simp] theorem State.setReg_params (s : State) (r : Reg) (v : Word) : (s.setReg r v).params = s.params := rfl
@[simp] theorem State.setReg_regs (s : State) (r : Reg) (v : Word) : (s.setReg r v).regs = s.regs.set r v := rfl
@[simp] theorem State.setReg_pc (s : State) (r : Reg) (v : Word) : (s.setReg r v).pc = s.pc := rfl
@[simp] theorem State.setReg_cond (s : State) (r : Reg) (v : Word) : (s.setReg r v).cond = s.cond := rfl
@[simp] theorem State.setReg_mem (s : State) (r : Reg) (v : Word) : (s.setReg r v).mem = s.mem := rfl
@[simp] theorem State.setReg_status (s : State) (r : Reg) (v : Word) : (s.setReg r v).status = s.status := rfl
@[simp] theorem State.setReg_stage (s : State) (r : Reg) (v : Word) : (s.setReg r v).stage = s.stage := rfl
@[simp] theorem State.setReg_readAnswers (s : State) (r : Reg) (v : Word) : (s.setReg r v).readAnswers = s.readAnswers := rfl
@[simp] theorem State.setReg_writeAnswers (s : State) (r : Reg) (v : Word) : (s.setReg r v).writeAnswers = s.writeAnswers := rfl
@[simp] theorem State.setReg_ioLog (s : State) (r : Reg) (v : Word) : (s.setReg r v).ioLog = s.ioLog := rfl

@[simp] theorem State.setPc_params (s : State) (v : Word) : (s.setPc v).params = s.params := rfl
@[simp] theorem State.setPc_regs (s : State) (v : Word) : (s.setPc v).regs = s.regs := rfl
@[simp] theorem State.setPc_pc (s : State) (v : Word) : (s.setPc v).pc = v := rfl
@[simp] theorem State.setPc_cond (s : State) (v : Word) : (s.setPc v).cond = s.cond := rfl
@[simp] theorem State.setPc_mem (s : State) (v : Word) : (s.setPc v).mem = s.mem := rfl
@[simp] theorem State.setPc_status (s : State) (v : Word) : (s.setPc v).status = s.status := rfl
@[simp] theorem State.setPc_stage (s : State) (v : Word) : (s.setPc v).stage = s.stage := rfl
@[simp] theorem State.setPc_readAnswers (s : State) (v : Word) : (s.setPc v).readAnswers = s.readAnswers := rfl
@[simp] theorem State.setPc_writeAnswers (s : State) (v : Word) : (s.setPc v).writeAnswers = s.writeAnswers := rfl
@[simp] theorem State.setPc_ioLog (s : State) (v : Word) : (s.setPc v).ioLog = s.ioLog := rfl

@[simp] theorem State.setCond_params (s : State) (c : Cond) : (s.setCond c).params = s.params := rfl
@[simp] theorem State.setCond_regs (s : State) (c : Cond) : (s.setCond c).regs = s.regs := rfl
@[simp] theorem State.setCond_pc (s : State) (c : Cond) : (s.setCond c).pc = s.pc := rfl
@[simp] theorem State.setCond_cond (s : State) (c : Cond) : (s.setCond c).cond = c := rfl
@[simp] theorem State.setCond_mem (s : State) (c : Cond) : (s.setCond c).mem = s.mem := rfl
@[simp] theorem State.setCond_status (s : State) (c : Cond) : (s.setCond c).status = s.status := rfl
@[simp] theorem State.setCond_stage (s : State) (c : Cond) : (s.setCond c).stage = s.stage := rfl
@[simp] theorem State.setCond_readAnswers (s : State) (c : Cond) : (s.setCond c).readAnswers = s.readAnswers := rfl
@[simp] theorem State.setCond_writeAnswers (s : State) (c : Cond) : (s.setCond c).writeAnswers = s.writeAnswers := rfl
@[simp] theorem State.setCond_ioLog (s : State) (c : Cond) : (s.setCond c).ioLog = s.ioLog := rfl

@[simp] theorem State.writeMem_params (s : State) (a v : Word) : (s.writeMem a v).params = s.params := rfl
@[simp] theorem State.writeMem_regs (s : State) (a v : Word) : (s.writeMem a v).regs = s.regs := rfl
@[simp] theorem State.writeMem_pc (s : State) (a v : Word) : (s.writeMem a v).pc = s.pc := rfl
@[simp] theorem State.writeMem_cond (s : State) (a v : Word) : (s.writeMem a v).cond = s.cond := rfl
@[simp] theorem State.writeMem_mem (s : State) (a v : Word) : (s.writeMem a v).mem = s.mem.write a v := rfl
@[simp] theorem State.writeMem_status (s : State) (a v : Word) : (s.writeMem a v).status = s.status := rfl
@[simp] theorem State.writeMem_stage (s : State) (a v : Word) : (s.writeMem a v).stage = s.stage := rfl
@[simp] theorem State.writeMem_readAnswers (s : State) (a v : Word) : (s.writeMem a v).readAnswers = s.readAnswers := rfl
@[simp] theorem State.writeMem_writeAnswers (s : State) (a v : Word) : (s.writeMem a v).writeAnswers = s.writeAnswers := rfl
@[simp] theorem State.writeMem_ioLog (s : State) (a v : Word) : (s.writeMem a v).ioLog = s.ioLog := rfl

@[simp] theorem State.setStatus_params (s : State) (r : RunStatus) : (s.setStatus r).params = s.params := rfl
@[simp] theorem State.setStatus_regs (s : State) (r : RunStatus) : (s.setStatus r).regs = s.regs := rfl
@[simp] theorem State.setStatus_pc (s : State) (r : RunStatus) : (s.setStatus r).pc = s.pc := rfl
@[simp] theorem State.setStatus_cond (s : State) (r : RunStatus) : (s.setStatus r).cond = s.cond := rfl
@[simp] theorem State.setStatus_mem (s : State) (r : RunStatus) : (s.setStatus r).mem = s.mem := rfl
@[simp] theorem State.setStatus_status (s : State) (r : RunStatus) : (s.setStatus r).status = r := rfl
@[simp] theorem State.setStatus_stage (s : State) (r : RunStatus) : (s.setStatus r).stage = s.stage := rfl
@[simp] theorem State.setStatus_readAnswers (s : State) (r : RunStatus) : (s.setStatus r).readAnswers = s.readAnswers := rfl
@[simp] theorem State.setStatus_writeAnswers (s : State) (r : RunStatus) : (s.setStatus r).writeAnswers = s.writeAnswers := rfl
@[simp] theorem State.setStatus_ioLog (s : State) (r : RunStatus) : (s.setStatus r).ioLog = s.ioLog := rfl

@[simp] theorem State.setStage_params (s : State) (g : Stage) : (s.setStage g).params = s.params := rfl
@[simp] theorem State.setStage_regs (s : State) (g : Stage) : (s.setStage g).regs = s.regs := rfl
@[simp] theorem State.setStage_pc (s : State) (g : Stage) : (s.setStage g).pc = s.pc := rfl
@[simp] theorem State.setStage_cond (s : State) (g : Stage) : (s.setStage g).cond = s.cond := rfl
@[simp] theorem State.setStage_mem (s : State) (g : Stage) : (s.setStage g).mem = s.mem := rfl
@[simp] theorem State.setStage_status (s : State) (g : Stage) : (s.setStage g).status = s.status := rfl
@[simp] theorem State.setStage_stage (s : State) (g : Stage) : (s.setStage g).stage = g := rfl
@[simp] theorem State.setStage_readAnswers (s : State) (g : Stage) : (s.setStage g).readAnswers = s.readAnswers := rfl
@[simp] theorem State.setStage_writeAnswers (s : State) (g : Stage) : (s.setStage g).writeAnswers = s.writeAnswers := rfl
@[simp] theorem State.setStage_ioLog (s : State) (g : Stage) : (s.setStage g).ioLog = s.ioLog := rfl

@[simp] theorem State.setReadAnswers_params (s : State) (l : List ReadAnswer) : (s.setReadAnswers l).params = s.params := rfl
@[simp] theorem State.setReadAnswers_regs (s : State) (l : List ReadAnswer) : (s.setReadAnswers l).regs = s.regs := rfl
@[simp] theorem State.setReadAnswers_pc (s : State) (l : List ReadAnswer) : (s.setReadAnswers l).pc = s.pc := rfl
@[simp] theorem State.setReadAnswers_cond (s : State) (l : List ReadAnswer) : (s.setReadAnswers l).cond = s.cond := rfl
@[simp] theorem State.setReadAnswers_mem (s : State) (l : List ReadAnswer) : (s.setReadAnswers l).mem = s.mem := rfl
@[simp] theorem State.setReadAnswers_status (s : State) (l : List ReadAnswer) : (s.setReadAnswers l).status = s.status := rfl
@[simp] theorem State.setReadAnswers_stage (s : State) (l : List ReadAnswer) : (s.setReadAnswers l).stage = s.stage := rfl
@[simp] theorem State.setReadAnswers_readAnswers (s : State) (l : List ReadAnswer) : (s.setReadAnswers l).readAnswers = l := rfl
@[simp] theorem State.setReadAnswers_writeAnswers (s : State) (l : List ReadAnswer) : (s.setReadAnswers l).writeAnswers = s.writeAnswers := rfl
@[simp] theorem State.setReadAnswers_ioLog (s : State) (l : List ReadAnswer) : (s.setReadAnswers l).ioLog = s.ioLog := rfl

@[simp] theorem State.setWriteAnswers_params (s : State) (l : List WriteAnswer) : (s.setWriteAnswers l).params = s.params := rfl
@[simp] theorem State.setWriteAnswers_regs (s : State) (l : List WriteAnswer) : (s.setWriteAnswers l).regs = s.regs := rfl
@[simp] theorem State.setWriteAnswers_pc (s : State) (l : List WriteAnswer) : (s.setWriteAnswers l).pc = s.pc := rfl
@[simp] theorem State.setWriteAnswers_cond (s : State) (l : List WriteAnswer) : (s.setWriteAnswers l).cond = s.cond := rfl
@[simp] theorem State.setWriteAnswers_mem (s : State) (l : List WriteAnswer) : (s.setWriteAnswers l).mem = s.mem := rfl
@[simp] theorem State.setWriteAnswers_status (s : State) (l : List WriteAnswer) : (s.setWriteAnswers l).status = s.status := rfl
@[simp] theorem State.setWriteAnswers_stage (s : State) (l : List WriteAnswer) : (s.setWriteAnswers l).stage = s.stage := rfl
@[simp] theorem State.setWriteAnswers_readAnswers (s : State) (l : List WriteAnswer) : (s.setWriteAnswers l).readAnswers = s.readAnswers := rfl
@[simp] theorem State.setWriteAnswers_writeAnswers (s : State) (l : List WriteAnswer) : (s.setWriteAnswers l).writeAnswers = l := rfl
@[simp] theorem State.setWriteAnswers_ioLog (s : State) (l : List WriteAnswer) : (s.setWriteAnswers l).ioLog = s.ioLog := rfl

@[simp] theorem State.logIo_params (s : State) (e : IoEvent) : (s.logIo e).params = s.params := rfl
@[simp] theorem State.logIo_regs (s : State) (e : IoEvent) : (s.logIo e).regs = s.regs := rfl
@[simp] theorem State.logIo_pc (s : State) (e : IoEvent) : (s.logIo e).pc = s.pc := rfl
@[simp] theorem State.logIo_cond (s : State) (e : IoEvent) : (s.logIo e).cond = s.cond := rfl
@[simp] theorem State.logIo_mem (s : State) (e : IoEvent) : (s.logIo e).mem = s.mem := rfl
@[simp] theorem State.logIo_status (s : State) (e : IoEvent) : (s.logIo e).status = s.status := rfl
@[simp] theorem State.logIo_stage (s : State) (e : IoEvent) : (s.logIo e).stage = s.stage := rfl
@[simp] theorem State.logIo_readAnswers (s : State) (e : IoEvent) : (s.logIo e).readAnswers = s.readAnswers := rfl
@[simp] theorem State.logIo_writeAnswers (s : State) (e : IoEvent) : (s.logIo e).writeAnswers = s.writeAnswers := rfl
@[simp] theorem State.logIo_ioLog (s : State) (e : IoEvent) : (s.logIo e).ioLog = s.ioLog ++ [e] := rfl

@[simp] theorem State.setcc_params (s : State) (v : Word) : (s.setcc v).params = s.params := rfl
@[simp] theorem State.setcc_regs (s : State) (v : Word) : (s.setcc v).regs = s.regs := rfl
@[simp] theorem State.setcc_pc (s : State) (v : Word) : (s.setcc v).pc = s.pc := rfl
@[simp] theorem State.setcc_cond (s : State) (v : Word) : (s.setcc v).cond = condOf v := rfl
@[simp] theorem State.setcc_mem (s : State) (v : Word) : (s.setcc v).mem = s.mem := rfl
@[simp] theorem State.setcc_status (s : State) (v : Word) : (s.setcc v).status = s.status := rfl
@[simp] theorem State.setcc_stage (s : State) (v : Word) : (s.setcc v).stage = s.stage := rfl
@[simp] theorem State.setcc_readAnswers (s : State) (v : Word) : (s.setcc v).readAnswers = s.readAnswers := rfl
@[simp] theorem State.setcc_writeAnswers (s : State) (v : Word) : (s.setcc v).writeAnswers = s.writeAnswers := rfl
@[simp] theorem State.setcc_ioLog (s : State) (v : Word) : (s.setcc v).ioLog = s.ioLog := rfl

@[simp] theorem State.advancePc_params (s : State) : s.advancePc.params = s.params := rfl
@[simp] theorem State.advancePc_regs (s : State) : s.advancePc.regs = s.regs := rfl
@[simp] theorem State.advancePc_pc (s : State) : s.advancePc.pc = s.pc + 1#16 := rfl
@[simp] theorem State.advancePc_cond (s : State) : s.advancePc.cond = s.cond := rfl
@[simp] theorem State.advancePc_mem (s : State) : s.advancePc.mem = s.mem := rfl
@[simp] theorem State.advancePc_status (s : State) : s.advancePc.status = s.status := rfl
@[simp] theorem State.advancePc_stage (s : State) : s.advancePc.stage = s.stage := rfl
@[simp] theorem State.advancePc_readAnswers (s : State) : s.advancePc.readAnswers = s.readAnswers := rfl
@[simp] theorem State.advancePc_writeAnswers (s : State) : s.advancePc.writeAnswers = s.writeAnswers := rfl
@[simp] theorem State.advancePc_ioLog (s : State) : s.advancePc.ioLog = s.ioLog := rfl

/-- A register file reads back what was written, and a write leaves every other register alone (R21). -/
theorem RegFile.get_set (f : RegFile) (r q : Reg) (v : Word) :
    (f.set r v).get q = if q = r then v else f.get q := by
  cases r <;> cases q <;> rfl

theorem State.reg_setReg (s : State) (r q : Reg) (v : Word) :
    (s.setReg r v).reg q = if q = r then v else s.reg q := RegFile.get_set s.regs r q v

@[simp] theorem State.setPc_reg (s : State) (v : Word) (q : Reg) : (s.setPc v).reg q = s.reg q := rfl
@[simp] theorem State.setCond_reg (s : State) (c : Cond) (q : Reg) : (s.setCond c).reg q = s.reg q := rfl
@[simp] theorem State.writeMem_reg (s : State) (a v : Word) (q : Reg) : (s.writeMem a v).reg q = s.reg q := rfl
@[simp] theorem State.setStatus_reg (s : State) (r : RunStatus) (q : Reg) : (s.setStatus r).reg q = s.reg q := rfl
@[simp] theorem State.setStage_reg (s : State) (g : Stage) (q : Reg) : (s.setStage g).reg q = s.reg q := rfl
@[simp] theorem State.setReadAnswers_reg (s : State) (l : List ReadAnswer) (q : Reg) : (s.setReadAnswers l).reg q = s.reg q := rfl
@[simp] theorem State.setWriteAnswers_reg (s : State) (l : List WriteAnswer) (q : Reg) : (s.setWriteAnswers l).reg q = s.reg q := rfl
@[simp] theorem State.logIo_reg (s : State) (e : IoEvent) (q : Reg) : (s.logIo e).reg q = s.reg q := rfl
@[simp] theorem State.setcc_reg (s : State) (v : Word) (q : Reg) : (s.setcc v).reg q = s.reg q := rfl
@[simp] theorem State.advancePc_reg (s : State) (q : Reg) : s.advancePc.reg q = s.reg q := rfl

end Sys2Proof.Machine
end

