-- ==== Sys2Proof/Laws/Memory.lean ====
section
/-! SUPPORT. The laws of memory: read after write, the canonical form, and the string read of R44. -/

namespace Sys2Proof.Machine

/-! ### Reads -/

theorem Memory.read_cons (k : Nat) (w : Word) (t : Memory) (b : Word) :
    Memory.read ((k, w) :: t) b = if k = b.toNat then w else t.read b := rfl

theorem Memory.read_erase (m : Memory) (a b : Word) :
    (m.erase a).read b = if b = a then Config.unlistedWord else m.read b := by
  induction m with
  | nil => simp [Memory.erase, Memory.read]
  | cons c t ih =>
    obtain ⟨k, w⟩ := c
    unfold Memory.erase
    split
    · next hk =>
      have : b ≠ a → k ≠ b.toNat := fun hb h => hb (BitVec.eq_of_toNat_eq (h.symm.trans hk))
      rw [ih, Memory.read_cons]
      split <;> simp_all
    · next hk =>
      rw [Memory.read_cons, ih, Memory.read_cons]
      have : k = b.toNat → b ≠ a := fun h hb => hk (hb ▸ h)
      split <;> simp_all

theorem Memory.read_insert (m : Memory) (a v b : Word) (hm : ∀ c ∈ m, c.1 ≠ a.toNat) :
    (m.insert a v).read b = if b = a then v else m.read b := by
  induction m with
  | nil => simp [Memory.insert, Memory.read, BitVec.toNat_inj, eq_comm]
  | cons c t ih =>
    obtain ⟨k, w⟩ := c
    have hk : k ≠ a.toNat := hm (k, w) (by simp)
    unfold Memory.insert
    split
    · rw [Memory.read_cons, ih fun c hc => hm c (by simp [hc]), Memory.read_cons]
      have : k = b.toNat → b ≠ a := fun h hb => hk (hb ▸ h)
      split <;> simp_all
    · rw [Memory.read_cons]
      simp [BitVec.toNat_inj, eq_comm]

theorem Memory.erase_away (m : Memory) (a : Word) : ∀ c ∈ m.erase a, c.1 ≠ a.toNat := by
  induction m with
  | nil => simp [Memory.erase]
  | cons c t ih =>
    obtain ⟨k, w⟩ := c
    unfold Memory.erase
    split
    · exact ih
    · next hk => simpa [hk] using ih

/-- Read after write, in every memory, canonical or not: the address written holds the value, every other address
what it held. -/
theorem Memory.read_write (m : Memory) (a v b : Word) :
    (m.write a v).read b = if b = a then v else m.read b := by
  unfold Memory.write
  split
  · next hv => rw [Memory.read_erase, hv]
  · rw [Memory.read_insert _ _ _ _ (m.erase_away a), Memory.read_erase]
    split <;> rfl

theorem State.read_writeMem (s : State) (a v b : Word) :
    (s.writeMem a v).mem.read b = if b = a then v else s.mem.read b := Memory.read_write s.mem a v b

/-! ### The canonical form -/

theorem Memory.wfFrom_cons (lo k : Nat) (w : Word) (t : Memory) :
    Memory.wfFrom lo ((k, w) :: t) = true ↔
      lo ≤ k ∧ k < 65536 ∧ w ≠ Config.unlistedWord ∧ t.wfFrom (k + 1) = true := by
  simp [Memory.wfFrom, and_assoc]

theorem Memory.wfFrom_mono {lo hi : Nat} (h : lo ≤ hi) : ∀ m : Memory, m.wfFrom hi = true → m.wfFrom lo = true
  | [], _ => rfl
  | (k, w) :: t, hw => by
    rw [Memory.wfFrom_cons] at hw ⊢
    exact ⟨Nat.le_trans h hw.1, hw.2⟩

theorem Memory.wfFrom_erase (m : Memory) (a : Word) (lo : Nat) (h : m.wfFrom lo = true) :
    (m.erase a).wfFrom lo = true := by
  induction m generalizing lo with
  | nil => rfl
  | cons c t ih =>
    obtain ⟨k, w⟩ := c
    rw [Memory.wfFrom_cons] at h
    obtain ⟨h1, h2, h3, h4⟩ := h
    unfold Memory.erase
    split
    · exact ih lo (Memory.wfFrom_mono (by omega) t h4)
    · exact (Memory.wfFrom_cons ..).2 ⟨h1, h2, h3, ih _ h4⟩

theorem Memory.wfFrom_insert (m : Memory) (a v : Word) (lo : Nat) (hv : v ≠ Config.unlistedWord)
    (ha : lo ≤ a.toNat) (hm : ∀ c ∈ m, c.1 ≠ a.toNat) (h : m.wfFrom lo = true) :
    (m.insert a v).wfFrom lo = true := by
  induction m generalizing lo with
  | nil => exact (Memory.wfFrom_cons ..).2 ⟨ha, a.isLt, hv, rfl⟩
  | cons c t ih =>
    obtain ⟨k, w⟩ := c
    have hk : k ≠ a.toNat := hm (k, w) (by simp)
    rw [Memory.wfFrom_cons] at h
    obtain ⟨h1, h2, h3, h4⟩ := h
    unfold Memory.insert
    split
    · exact (Memory.wfFrom_cons ..).2 ⟨h1, h2, h3, ih _ (by omega) (fun c hc => hm c (by simp [hc])) h4⟩
    · exact (Memory.wfFrom_cons ..).2 ⟨ha, a.isLt, hv, (Memory.wfFrom_cons ..).2 ⟨by omega, h2, h3, h4⟩⟩

/-- Every write keeps the canonical form. -/
theorem Memory.wf_write (m : Memory) (a v : Word) (h : m.wf = true) : (m.write a v).wf = true := by
  unfold Memory.write
  split
  · exact m.wfFrom_erase a 0 h
  · next hv => exact (m.erase a).wfFrom_insert a v 0 hv (Nat.zero_le _) (m.erase_away a) (m.wfFrom_erase a 0 h)

theorem reset_mem_wf : State.reset.mem.wf = true := rfl

/-! ### The string read -/

/-- What the scan answers: the bytes of the Words before the first zero Word, if there is one among the next `n`. -/
theorem Memory.scan_eq_some (m : Memory) (n : Nat) (a : Word) (l : List Byte) :
    m.scan n a = some l ↔
      l.length < n ∧ m.read (a + BitVec.ofNat 16 l.length) = 0#16 ∧
        ∀ k, k < l.length → m.read (a + BitVec.ofNat 16 k) ≠ 0#16 ∧
          l[k]? = some (lowByte (m.read (a + BitVec.ofNat 16 k))) := by
  induction n generalizing a l with
  | zero => simp [Memory.scan]
  | succ n ih =>
    have shift : ∀ k : Nat, a + BitVec.ofNat 16 (k + 1) = a + 1#16 + BitVec.ofNat 16 k := by
      intro k
      rw [BitVec.add_assoc, Nat.add_comm, BitVec.ofNat_add]
    unfold Memory.scan
    split
    · next hz =>
      constructor
      · rintro h
        cases h
        simpa using hz
      · rintro ⟨-, -, h⟩
        match l with
        | [] => rfl
        | x :: t => exact absurd (by simpa using hz) (h 0 (by simp)).1
    · next hz =>
      match l with
      | [] => simpa using hz
      | x :: t =>
        rw [Option.map_eq_some_iff]
        constructor
        · rintro ⟨u, hu, hx⟩
          cases hx
          obtain ⟨h1, h2, h3⟩ := (ih _ _).1 hu
          refine ⟨by simpa using h1, by rw [List.length_cons, shift]; exact h2, ?_⟩
          intro k hk
          match k with
          | 0 => simpa using hz
          | k + 1 =>
            rw [shift]
            exact h3 k (by simpa using hk)
        · rintro ⟨h1, h2, h3⟩
          refine ⟨t, (ih _ _).2 ⟨by simpa using h1, by rw [List.length_cons, shift] at h2; exact h2, ?_⟩, ?_⟩
          · intro k hk
            have := h3 (k + 1) (by simpa using hk)
            rw [shift] at this
            exact this
          · have := (h3 0 (by simp)).2
            simp at this
            rw [this]

/-- When the scan answers nothing: none of the next `n` Words is zero. -/
theorem Memory.scan_eq_none (m : Memory) (n : Nat) (a : Word) :
    m.scan n a = none ↔ ∀ k, k < n → m.read (a + BitVec.ofNat 16 k) ≠ 0#16 := by
  induction n generalizing a with
  | zero => simp [Memory.scan]
  | succ n ih =>
    have shift : ∀ k : Nat, a + BitVec.ofNat 16 (k + 1) = a + 1#16 + BitVec.ofNat 16 k := by
      intro k
      rw [BitVec.add_assoc, Nat.add_comm, BitVec.ofNat_add]
    unfold Memory.scan
    split
    · next hz =>
      simp only [reduceCtorEq, false_iff]
      exact fun h => h 0 (Nat.succ_pos n) (by simpa using hz)
    · next hz =>
      rw [Option.map_eq_none_iff, ih]
      constructor
      · intro h k hk
        match k with
        | 0 => simpa using hz
        | k + 1 =>
          rw [shift]
          exact h k (by omega)
      · intro h k hk
        rw [← shift]
        exact h (k + 1) (by omega)

end Sys2Proof.Machine
end

