-- ==== Sys2Proof/Laws/Ops.lean ====
section
/-! SUPPORT. For each shared operation, once, everything it can do. -/

namespace Sys2Proof.Machine

/-! ### Flags and the common end of the flag-affecting instructions -/

/-- The flag of a Word by its number (R85). -/
theorem condOf_cases (v : Word) :
    (v.toNat = 0 ∧ condOf v = .z) ∨ (1 ≤ v.toNat ∧ v.toNat ≤ 32767 ∧ condOf v = .p) ∨
      (32768 ≤ v.toNat ∧ condOf v = .n) := by
  have hz : v = 0#16 ↔ v.toNat = 0 := by rw [← BitVec.toNat_inj]; rfl
  have hs : v.getLsbD 15 = true ↔ 32768 ≤ v.toNat := by
    have h : v.getLsbD 15 = decide (32768 ≤ v.toNat) := by
      have := BitVec.msb_eq_decide v
      rwa [BitVec.msb_eq_getLsbD_last] at this
    rw [h, decide_eq_true_iff]
  unfold condOf
  split
  · exact .inl ⟨hz.1 ‹_›, rfl⟩
  · have : v.toNat ≠ 0 := fun h => absurd (hz.2 h) ‹_›
    split
    · exact .inr (.inr ⟨hs.1 ‹_›, rfl⟩)
    · have : ¬ 32768 ≤ v.toNat := fun h => absurd (hs.2 h) ‹_›
      exact .inr (.inl ⟨by omega, by omega, rfl⟩)

/-- Writing DR always goes on. -/
theorem writeDr_eq (dr : Reg) (v : Word) (s : State) : writeDr dr v s = .next ((s.setReg dr v).setcc v) := rfl

/-! ### Ending a run -/

theorem raise_eq (e : TickError) (s : State) : raise e s = .next (s.setStatus (.failed e)) := rfl

theorem halt_eq (s : State) : halt s = .next (s.setStatus .halted) := rfl

theorem decodeFault_eq (w : Word) (s : State) : decodeFault w s = .next (s.setStatus (.failed (.decode w s.pc))) := rfl

/-! ### The link register -/

theorem linkR7_eq (s : State) : linkR7 s = s.setReg .r7 s.pc := rfl

@[simp] theorem linkR7_pc (s : State) : (linkR7 s).pc = s.pc := rfl

/-! ### The I/O capability -/

/-- Taking an answer changes nothing but the list of answers. -/
theorem State.takeReadAnswer_cases (s : State) :
    (s.readAnswers = [] ∧ s.takeReadAnswer = (Config.freeReadAnswer s.ioLog, s)) ∨
      ∃ a rest, s.readAnswers = a :: rest ∧ s.takeReadAnswer = (a, s.setReadAnswers rest) := by
  unfold State.takeReadAnswer
  split
  · exact .inl ⟨‹_›, rfl⟩
  · exact .inr ⟨_, _, ‹_›, rfl⟩

/-- Taking an answer changes nothing but the list of answers. -/
theorem State.takeWriteAnswer_cases (s : State) :
    (s.writeAnswers = [] ∧ s.takeWriteAnswer = (Config.freeWriteAnswer s.ioLog, s)) ∨
      ∃ a rest, s.writeAnswers = a :: rest ∧ s.takeWriteAnswer = (a, s.setWriteAnswers rest) := by
  unfold State.takeWriteAnswer
  split
  · exact .inl ⟨‹_›, rfl⟩
  · exact .inr ⟨_, _, ‹_›, rfl⟩

/-- A write call goes on or fails, by the host's answer; `r` are the answers left. -/
theorem ioWrite_cases (call : WriteCall) (s : State) :
    ∃ r, (r = s.writeAnswers ∨ ∃ a, s.writeAnswers = a :: r) ∧
      (ioWrite call s = .next ((s.setWriteAnswers r).logIo (.wrote call)) ∨
        ∃ e n, ioWrite call s = .next (((s.setWriteAnswers r).logIo
          (.writeFailed call e (call.payload.take n))).setStatus (.failed (.io e)))) := by
  unfold ioWrite
  rcases s.takeWriteAnswer_cases with ⟨h, ht⟩ | ⟨a, rest, h, ht⟩
  · refine ⟨[], .inl h.symm, ?_⟩
    have hs : s.setWriteAnswers [] = s := by rw [← h]; rfl
    rw [ht, hs]
    cases Config.freeWriteAnswer s.ioLog with
    | accepted => exact .inl rfl
    | failed e n => exact .inr ⟨e, n, rfl⟩
  · refine ⟨rest, .inr ⟨a, h⟩, ?_⟩
    rw [ht]
    cases a with
    | accepted => exact .inl rfl
    | failed e n => exact .inr ⟨e, n, rfl⟩

/-- GETC goes on with a byte, fails, or waits for ever, by the host's answer; `r` are the answers left. -/
theorem trapGetc_cases (s : State) :
    trapGetc s = .fault .inputNeverAnswered ∨
      ∃ r, (r = s.readAnswers ∨ ∃ a, s.readAnswers = a :: r) ∧
        ((∃ b, trapGetc s = .next (((s.setReadAnswers r).logIo (.readByte b)).setReg .r0 (zext b))) ∨
          ∃ e, trapGetc s = .next (((s.setReadAnswers r).logIo (.readFailed e)).setStatus (.failed (.io e)))) := by
  unfold trapGetc
  rcases s.takeReadAnswer_cases with ⟨h, ht⟩ | ⟨a, rest, h, ht⟩
  · have hs : s.setReadAnswers [] = s := by rw [← h]; rfl
    rw [ht]
    cases Config.freeReadAnswer s.ioLog with
    | byte b => exact .inr ⟨[], .inl h.symm, .inl ⟨b, by rw [hs]⟩⟩
    | failed e => exact .inr ⟨[], .inl h.symm, .inr ⟨e, by rw [hs]; rfl⟩⟩
    | never => exact .inl rfl
  · rw [ht]
    cases a with
    | byte b => exact .inr ⟨rest, .inr ⟨_, h⟩, .inl ⟨b, rfl⟩⟩
    | failed e => exact .inr ⟨rest, .inr ⟨_, h⟩, .inr ⟨e, rfl⟩⟩
    | never => exact .inl rfl

/-- What a TRAP does, by its vector. -/
theorem trapService_cases (v : Byte) (s : State) :
    (v = 0x20#8 ∧ trapService v s = trapGetc s) ∨ (v = 0x21#8 ∧ trapService v s = trapOut s) ∨
      (v = 0x22#8 ∧ trapService v s = trapPuts s) ∨ (v = 0x25#8 ∧ trapService v s = halt s) ∨
        (v ≠ 0x20#8 ∧ v ≠ 0x21#8 ∧ v ≠ 0x22#8 ∧ v ≠ 0x25#8 ∧
          trapService v s = raise (.unsupported (.trapVector v)) s) := by
  unfold trapService
  by_cases h0 : v = 0x20#8
  · simp [h0]
  by_cases h1 : v = 0x21#8
  · simp [h1]
  by_cases h2 : v = 0x22#8
  · simp [h2]
  by_cases h3 : v = 0x25#8
  · simp [h3, trapHalt]
  simp [h0, h1, h2, h3]

/-- PUTS is stuck, or writes the string at R0 in one call. -/
theorem trapPuts_cases (s : State) :
    (s.mem.readString (s.reg .r0) = none ∧ trapPuts s = .fault .putsNeverEnds) ∨
      ∃ l, s.mem.readString (s.reg .r0) = some l ∧ trapPuts s = ioWrite (.bytes l) s := by
  unfold trapPuts
  cases h : s.mem.readString (s.reg .r0) with
  | none => exact .inl ⟨rfl, rfl⟩
  | some l => exact .inr ⟨l, rfl, rfl⟩

end Sys2Proof.Machine
end

