-- ==== Sys2Proof/Laws/Exec.lean ====
section
/-! SUPPORT. What an effect can do, once: the inversion of `exec`. -/

namespace Sys2Proof.Machine

/-- TRAP to a next state (R110 to R120): a GETC answered, a write call answered, the halt, or an unrecognised vector. -/
theorem execTrap_next {v : Byte} {s t : State} (h : execTrap v s = .next t) :
    (v = 0x20#8 ∧ ∃ r, (r = s.readAnswers ∨ ∃ a, s.readAnswers = a :: r) ∧
      ((∃ b, t = (((linkR7 s).setReadAnswers r).logIo (.readByte b)).setReg .r0 (zext b)) ∨
        ∃ e, t = (((linkR7 s).setReadAnswers r).logIo (.readFailed e)).setStatus (.failed (.io e)))) ∨
    (∃ c, ((v = 0x21#8 ∧ c = .byte (lowByte (s.reg .r0))) ∨
        (v = 0x22#8 ∧ ∃ l, s.mem.readString (s.reg .r0) = some l ∧ c = .bytes l)) ∧
      ∃ r, (r = s.writeAnswers ∨ ∃ a, s.writeAnswers = a :: r) ∧
        (t = ((linkR7 s).setWriteAnswers r).logIo (.wrote c) ∨
          ∃ e n, t = (((linkR7 s).setWriteAnswers r).logIo
            (.writeFailed c e (c.payload.take n))).setStatus (.failed (.io e)))) ∨
    (v = 0x25#8 ∧ t = (linkR7 s).setStatus .halted) ∨
    (v ∉ recognisedVectors ∧ t = (linkR7 s).setStatus (.failed (.unsupported (.trapVector v)))) := by
  have out : ∀ c : WriteCall, ioWrite c (linkR7 s) = .next t →
      ∃ r, (r = s.writeAnswers ∨ ∃ a, s.writeAnswers = a :: r) ∧
        (t = ((linkR7 s).setWriteAnswers r).logIo (.wrote c) ∨
          ∃ e n, t = (((linkR7 s).setWriteAnswers r).logIo
            (.writeFailed c e (c.payload.take n))).setStatus (.failed (.io e))) := by
    intro c hc
    obtain ⟨r, hr, hw | ⟨e, n, hw⟩⟩ := ioWrite_cases c (linkR7 s) <;> rw [hw] at hc <;> cases hc
    · exact ⟨r, hr, .inl rfl⟩
    · exact ⟨r, hr, .inr ⟨e, n, rfl⟩⟩
  change trapService v (linkR7 s) = .next t at h
  rcases trapService_cases v (linkR7 s) with
    ⟨hv, hs⟩ | ⟨hv, hs⟩ | ⟨hv, hs⟩ | ⟨hv, hs⟩ | ⟨v0, v1, v2, v3, hs⟩ <;> rw [hs] at h
  · rcases trapGetc_cases (linkR7 s) with hg | ⟨r, hr, ⟨b, hg⟩ | ⟨e, hg⟩⟩ <;> rw [hg] at h <;> cases h
    · exact .inl ⟨hv, r, hr, .inl ⟨b, rfl⟩⟩
    · exact .inl ⟨hv, r, hr, .inr ⟨e, rfl⟩⟩
  · exact .inr (.inl ⟨_, .inl ⟨hv, rfl⟩, out _ h⟩)
  · rcases trapPuts_cases (linkR7 s) with ⟨-, hp⟩ | ⟨l, hl, hp⟩ <;> rw [hp] at h
    · exact absurd h nofun
    · exact .inr (.inl ⟨_, .inr ⟨hv, l, hl, rfl⟩, out _ h⟩)
  · cases h
    exact .inr (.inr (.inl ⟨hv, rfl⟩))
  · cases h
    refine .inr (.inr (.inr ⟨?_, rfl⟩))
    simp [recognisedVectors, v0, v1, v2, v3]

/-- Every effect to a next state: a flag-affecting instruction writes DR and the flag of the value; a store writes its
Word; BR and JMP move PC; JSR and JSRR link and move PC; RTI fails; TRAP is as `execTrap_next` says; the table's
reserved row takes the decode fault. -/
theorem exec_next {i : Instr} {s t : State} (h : exec i s = .next t) :
    (∃ dr v, flagDest i = some dr ∧ t = (s.setReg dr v).setcc v) ∨
    (∃ a r, storeAddress s i = some a ∧ storedReg i = some r ∧ t = s.writeMem a (s.reg r)) ∨
    ((∃ n z p off9, i = .br n z p off9) ∧ ∃ v, t = s.setPc v) ∨
    (∃ base, i = .jmp base ∧ t = s.setPc (s.reg base)) ∨
    (((∃ off11, i = .jsr off11) ∨ ∃ base, i = .jsrr base) ∧ ∃ v, t = (linkR7 s).setPc v) ∨
    (i = .rti ∧ t = s.setStatus (.failed (.unsupported .rti))) ∨
    (∃ v, i = .trap v ∧ execTrap v s = .next t) ∨
    (∃ low, i = .reserved1101 low ∧ t = (s.setPc (s.pc - 1#16)).setStatus
      (.failed (.decode (encode (.reserved1101 low)) (s.pc - 1#16)))) := by
  cases i with
  | addReg dr sr1 sr2 => cases h; exact .inl ⟨dr, _, rfl, rfl⟩
  | addImm dr sr1 imm5 => cases h; exact .inl ⟨dr, _, rfl, rfl⟩
  | andReg dr sr1 sr2 => cases h; exact .inl ⟨dr, _, rfl, rfl⟩
  | andImm dr sr1 imm5 => cases h; exact .inl ⟨dr, _, rfl, rfl⟩
  | not dr sr => cases h; exact .inl ⟨dr, _, rfl, rfl⟩
  | ld dr off9 => cases h; exact .inl ⟨dr, _, rfl, rfl⟩
  | ldi dr off9 => cases h; exact .inl ⟨dr, _, rfl, rfl⟩
  | ldr dr base off6 => cases h; exact .inl ⟨dr, _, rfl, rfl⟩
  | lea dr off9 => cases h; exact .inl ⟨dr, _, rfl, rfl⟩
  | st sr off9 => cases h; exact .inr (.inl ⟨_, sr, rfl, rfl, rfl⟩)
  | sti sr off9 => cases h; exact .inr (.inl ⟨_, sr, rfl, rfl, rfl⟩)
  | str sr base off6 => cases h; exact .inr (.inl ⟨_, sr, rfl, rfl, rfl⟩)
  | br n z p off9 =>
    cases h
    refine .inr (.inr (.inl ⟨⟨n, z, p, off9, rfl⟩, ?_⟩))
    split
    · exact ⟨_, rfl⟩
    · exact ⟨s.pc, rfl⟩
  | jmp base => cases h; exact .inr (.inr (.inr (.inl ⟨base, rfl, rfl⟩)))
  | jsr off11 => cases h; exact .inr (.inr (.inr (.inr (.inl ⟨.inl ⟨off11, rfl⟩, _, rfl⟩))))
  | jsrr base => cases h; exact .inr (.inr (.inr (.inr (.inl ⟨.inr ⟨base, rfl⟩, _, rfl⟩))))
  | rti => cases h; exact .inr (.inr (.inr (.inr (.inr (.inl ⟨rfl, rfl⟩)))))
  | trap v => exact .inr (.inr (.inr (.inr (.inr (.inr (.inl ⟨v, rfl, h⟩))))))
  | reserved1101 low => cases h; exact .inr (.inr (.inr (.inr (.inr (.inr (.inr ⟨low, rfl, rfl⟩))))))

end Sys2Proof.Machine
end

