-- ==== Sys2Proof/Laws/Step.lean ====
section
/-! SUPPORT. What a step can do, once. -/

namespace Sys2Proof.Machine

theorem State.noStep_eq_none (s : State) : s.noStep = none ↔ s.stage ≠ .created ∧ s.status = .running := by
  unfold State.noStep
  cases s.stage <;> cases s.status <;> simp

/-- A step to a next state: the state allows a step, and the Word at PC either has no decoding, and the run fails
there, or is an instruction, and the next state is its effect's. -/
theorem step_next {s t : State} (h : step s = .next t) :
    s.stage ≠ .created ∧ s.status = .running ∧
      ((∃ e, decode s.params.strictFields s.fetch = .error e ∧
          t = (s.setStage .started).setStatus (.failed (.decode s.fetch s.pc))) ∨
        ∃ i, decode s.params.strictFields s.fetch = .ok i ∧ exec i (s.setStage .started).advancePc = .next t) := by
  unfold step at h
  split at h
  · exact absurd h nofun
  · next hn =>
    obtain ⟨h1, h2⟩ := s.noStep_eq_none.1 hn
    refine ⟨h1, h2, ?_⟩
    unfold cycle at h
    change (match decode s.params.strictFields s.fetch with
      | .error _ => decodeFault s.fetch (s.setStage .started)
      | .ok i => exec i (s.setStage .started).advancePc) = .next t at h
    split at h
    · next e he =>
      cases h
      exact .inl ⟨e, he, rfl⟩
    · next i hi => exact .inr ⟨i, hi, h⟩

/-- The step of a state that allows one. -/
theorem step_of_mayStep {s : State} (h1 : s.stage ≠ .created) (h2 : s.status = .running) :
    step s = cycle (s.setStage .started) := by
  unfold step
  rw [s.noStep_eq_none.2 ⟨h1, h2⟩]

/-- The driver's induction: what a step keeps, a run keeps. -/
theorem drive_keeps (P : State → Prop) (hstep : ∀ s t, P s → step s = .next t → P t) :
    ∀ n s t, P s → drive n s = .next t → P t
  | 0, s, t, hs, h => by
    cases h
    exact hs
  | n + 1, s, t, hs, h => by
    unfold drive at h
    split at h
    · split at h
      · next u hu => exact drive_keeps P hstep n u t (hstep s u hs hu) h
      · exact absurd h nofun
      · exact absurd h nofun
    · cases h
      exact hs
    · cases h
      exact hs

end Sys2Proof.Machine
end

