-- ==== Sys2Proof/Laws/Driver.lean ====
section
/-! SUPPORT. When a step has no outcome, and how the driver's runs go together. -/

namespace Sys2Proof.Machine

/-- The host's answer to a read is that of the answers it has ready and of the calls made so far. -/
theorem State.takeReadAnswer_congr {s t : State} (hr : t.readAnswers = s.readAnswers) (hl : t.ioLog = s.ioLog) :
    t.takeReadAnswer.1 = s.takeReadAnswer.1 := by
  unfold State.takeReadAnswer
  rw [hr, hl]
  cases s.readAnswers <;> rfl

/-- GETC waits for ever exactly if the host never answers (R121). -/
theorem trapGetc_fault (s : State) (f : Fault) :
    trapGetc s = .fault f ↔ s.takeReadAnswer.1 = .never ∧ f = .inputNeverAnswered := by
  unfold trapGetc
  cases h : s.takeReadAnswer with
  | mk a t => cases a <;> simp [raise, eq_comm]

/-- An effect has no outcome in two places only: a GETC whose read is never answered (R121), and a PUTS whose scan never
ends (R116). -/
theorem exec_fault {i : Instr} {s : State} {f : Fault} (h : exec i s = .fault f) :
    (i = .trap 0x20#8 ∧ s.takeReadAnswer.1 = .never ∧ f = .inputNeverAnswered) ∨
      (i = .trap 0x22#8 ∧ s.mem.readString (s.reg .r0) = none ∧ f = .putsNeverEnds) := by
  cases i with
  | trap v =>
    change trapService v (linkR7 s) = .fault f at h
    have out : ∀ c : WriteCall, ioWrite c (linkR7 s) ≠ .fault f := fun c hc => by
      obtain ⟨r, -, hw | ⟨e, n, hw⟩⟩ := ioWrite_cases c (linkR7 s) <;> rw [hw] at hc <;> exact absurd hc nofun
    rcases trapService_cases v (linkR7 s) with
      ⟨hv, hs⟩ | ⟨hv, hs⟩ | ⟨hv, hs⟩ | ⟨hv, hs⟩ | ⟨-, -, -, -, hs⟩ <;> rw [hs] at h
    · obtain ⟨ha, hf⟩ := (trapGetc_fault _ _).1 h
      exact .inl ⟨by rw [hv], ha ▸ State.takeReadAnswer_congr (s := linkR7 s) rfl rfl, hf⟩
    · exact absurd h (out _)
    · rcases trapPuts_cases (linkR7 s) with ⟨hn, hp⟩ | ⟨l, -, hp⟩ <;> rw [hp] at h
      · cases h
        exact .inr ⟨by rw [hv], hn, rfl⟩
      · exact absurd h (out _)
    · exact absurd h nofun
    · exact absurd h nofun
  | _ => exact absurd h nofun

/-- No effect is refused: every instruction has its meaning. -/
theorem exec_ne_refused (i : Instr) (s : State) (r : Refusal) : exec i s ≠ .refused r := by
  cases i with
  | trap v =>
    intro h
    change trapService v (linkR7 s) = .refused r at h
    have out : ∀ c : WriteCall, ioWrite c (linkR7 s) ≠ .refused r := fun c hc => by
      obtain ⟨q, -, hw | ⟨e, n, hw⟩⟩ := ioWrite_cases c (linkR7 s) <;> rw [hw] at hc <;> exact absurd hc nofun
    rcases trapService_cases v (linkR7 s) with
      ⟨-, hs⟩ | ⟨-, hs⟩ | ⟨-, hs⟩ | ⟨-, hs⟩ | ⟨-, -, -, -, hs⟩ <;> rw [hs] at h
    · rcases trapGetc_cases (linkR7 s) with hg | ⟨q, -, ⟨b, hg⟩ | ⟨e, hg⟩⟩ <;> rw [hg] at h <;> exact absurd h nofun
    · exact absurd h (out _)
    · rcases trapPuts_cases (linkR7 s) with ⟨-, hp⟩ | ⟨l, -, hp⟩ <;> rw [hp] at h
      · exact absurd h nofun
      · exact absurd h (out _)
    · exact absurd h nofun
    · exact absurd h nofun
  | _ => exact nofun

/-- A step without an outcome is an effect without one. -/
theorem step_fault {s : State} {f : Fault} (h : step s = .fault f) :
    s.MayStep ∧ ∃ i, decode s.params.strictFields s.fetch = .ok i ∧
      exec i (s.setStage .started).advancePc = .fault f := by
  unfold step at h
  split at h
  · exact absurd h nofun
  · next hn =>
    refine ⟨s.noStep_eq_none.1 hn, ?_⟩
    change (match decode s.params.strictFields s.fetch with
      | .error _ => decodeFault s.fetch (s.setStage .started)
      | .ok i => exec i (s.setStage .started).advancePc) = .fault f at h
    split at h
    · exact absurd h nofun
    · next i hi => exact ⟨i, hi, h⟩

/-- A step waits for ever exactly if it makes GETC's read and the host never answers it. -/
theorem step_inputNeverAnswered (s : State) :
    step s = .fault .inputNeverAnswered ↔ s.ReadsInput ∧ s.takeReadAnswer.1 = .never := by
  constructor
  · intro h
    obtain ⟨hm, i, hi, he⟩ := step_fault h
    obtain ⟨rfl, ha, -⟩ | ⟨-, -, hf⟩ := exec_fault he
    · exact ⟨⟨hm, hi⟩, ha ▸ State.takeReadAnswer_congr (s := (s.setStage .started).advancePc) rfl rfl⟩
    · exact absurd hf nofun
  · rintro ⟨⟨hm, hi⟩, ha⟩
    rw [step_of_mayStep hm.1 hm.2]
    change (match decode s.params.strictFields s.fetch with
      | .error _ => decodeFault s.fetch (s.setStage .started)
      | .ok i => exec i (s.setStage .started).advancePc) = _
    rw [hi]
    change trapGetc (linkR7 _) = _
    exact (trapGetc_fault _ _).2 ⟨ha ▸ State.takeReadAnswer_congr (s := s) rfl rfl, rfl⟩

/-- A run of `m` steps to `t` goes on as a run from `t`. -/
theorem drive_add : ∀ {m : Nat} {s t : State}, drive m s = .next t → ∀ n, drive (m + n) s = drive n t
  | 0, s, t, h, n => by
    cases h
    rw [Nat.zero_add]
  | m + 1, s, t, h, n => by
    rw [Nat.succ_add, drive]
    unfold drive at h
    split at h
    · next hs =>
      split at h
      · next u hu => simpa [hs, hu] using drive_add h n
      · exact absurd h nofun
      · exact absurd h nofun
    · next hs =>
      cases h
      cases n <;> simp [drive, hs]
    · next hs =>
      cases h
      cases n <;> simp [drive, hs]

/-- A run's first step that is no next state ends the driver: there it stands, however often the host calls. -/
theorem drive_stuck {s : State} (hr : s.status = .running) {f : Fault} (h : step s = .fault f) (n : Nat) :
    drive (n + 1) s = .fault f := by
  simp [drive, hr, h]

/-- A stuck run came to a state whose step has no outcome. -/
theorem drive_fault : ∀ {n : Nat} {s : State} {f : Fault}, drive n s = .fault f →
    ∃ m t, m < n ∧ drive m s = .next t ∧ t.status = .running ∧ step t = .fault f
  | 0, _, _, h => absurd h nofun
  | n + 1, s, f, h => by
    unfold drive at h
    split at h
    · next hs =>
      split at h
      · next u hu =>
        obtain ⟨m, t, hm, hd, ht⟩ := drive_fault h
        exact ⟨m + 1, t, by omega, by simp [drive, hs, hu, hd], ht⟩
      · next g hg =>
        cases h
        exact ⟨0, s, by omega, rfl, hs, hg⟩
      · exact absurd h nofun
    · exact absurd h nofun
    · exact absurd h nofun

end Sys2Proof.Machine
end

