-- ==== Sys2Proof/Laws/Encoding.lean ====
section
/-! SUPPORT. The register fields' own laws, and fields of a Word made of fields. -/

namespace Sys2Proof

@[simp] theorem Reg.ofBits_bits (r : Reg) : Reg.ofBits r.bits = r := by cases r <;> rfl

theorem Reg.bits_ofBits (b : BitVec 3) : (Reg.ofBits b).bits = b := by
  revert b
  decide

/-- A field that lies in the upper part of a concatenation. -/
theorem field_append_high {m n : Nat} (x : BitVec m) (y : BitVec n) (lo len : Nat) (h : n ≤ lo) :
    (x ++ y).extractLsb' lo len = x.extractLsb' (lo - n) len := by
  ext k hk
  rw [BitVec.getElem_extractLsb', BitVec.getElem_extractLsb', BitVec.getLsbD_append, if_neg (by omega)]
  congr 1
  omega

/-- A field that lies in the lower part of a concatenation. -/
theorem field_append_low {m n : Nat} (x : BitVec m) (y : BitVec n) (lo len : Nat) (h : lo + len ≤ n) :
    (x ++ y).extractLsb' lo len = y.extractLsb' lo len := by
  ext k hk
  rw [BitVec.getElem_extractLsb', BitVec.getElem_extractLsb', BitVec.getLsbD_append, if_pos (by omega)]

/-- A field that is the whole. -/
theorem field_whole {n : Nat} (x : BitVec n) : x.extractLsb' 0 n = x := by
  ext k hk
  simp

end Sys2Proof
end

