-- ==== Sys2Proof/Laws/PerInstr.lean ====
section
/-! SUPPORT. Statements made once per instruction: the opcode field of its encoding (R54, R55). -/

namespace Sys2Proof.Laws.EncodedOpcode

/-- The opcode map (R55). -/
def opcodeNumber : Instr → BitVec 4
  | .br _ _ _ _ => 0x0#4
  | .addReg _ _ _ => 0x1#4
  | .addImm _ _ _ => 0x1#4
  | .ld _ _ => 0x2#4
  | .st _ _ => 0x3#4
  | .jsr _ => 0x4#4
  | .jsrr _ => 0x4#4
  | .andReg _ _ _ => 0x5#4
  | .andImm _ _ _ => 0x5#4
  | .ldr _ _ _ => 0x6#4
  | .str _ _ _ => 0x7#4
  | .rti => 0x8#4
  | .not _ _ => 0x9#4
  | .ldi _ _ => 0xA#4
  | .sti _ _ => 0xB#4
  | .jmp _ => 0xC#4
  | .reserved1101 _ => 0xD#4
  | .lea _ _ => 0xE#4
  | .trap _ => 0xF#4

/-- Bits 15 to 12 of the encoding are the opcode of R55. -/
def Statement (i : Instr) : Prop := opcodeOf (encode i) = opcodeNumber i

theorem addReg (dr : Reg) (sr1 : Reg) (sr2 : Reg) : Statement (.addReg dr sr1 sr2) := by
  unfold Statement opcodeOf encode
  repeat rw [field_append_high]
  all_goals first | rfl | decide

theorem addImm (dr : Reg) (sr1 : Reg) (imm5 : BitVec 5) : Statement (.addImm dr sr1 imm5) := by
  unfold Statement opcodeOf encode
  repeat rw [field_append_high]
  all_goals first | rfl | decide

theorem andReg (dr : Reg) (sr1 : Reg) (sr2 : Reg) : Statement (.andReg dr sr1 sr2) := by
  unfold Statement opcodeOf encode
  repeat rw [field_append_high]
  all_goals first | rfl | decide

theorem andImm (dr : Reg) (sr1 : Reg) (imm5 : BitVec 5) : Statement (.andImm dr sr1 imm5) := by
  unfold Statement opcodeOf encode
  repeat rw [field_append_high]
  all_goals first | rfl | decide

theorem not (dr : Reg) (sr : Reg) : Statement (.not dr sr) := by
  unfold Statement opcodeOf encode
  repeat rw [field_append_high]
  all_goals first | rfl | decide

theorem ld (dr : Reg) (off9 : BitVec 9) : Statement (.ld dr off9) := by
  unfold Statement opcodeOf encode
  repeat rw [field_append_high]
  all_goals first | rfl | decide

theorem ldi (dr : Reg) (off9 : BitVec 9) : Statement (.ldi dr off9) := by
  unfold Statement opcodeOf encode
  repeat rw [field_append_high]
  all_goals first | rfl | decide

theorem ldr (dr : Reg) (base : Reg) (off6 : BitVec 6) : Statement (.ldr dr base off6) := by
  unfold Statement opcodeOf encode
  repeat rw [field_append_high]
  all_goals first | rfl | decide

theorem lea (dr : Reg) (off9 : BitVec 9) : Statement (.lea dr off9) := by
  unfold Statement opcodeOf encode
  repeat rw [field_append_high]
  all_goals first | rfl | decide

theorem st (sr : Reg) (off9 : BitVec 9) : Statement (.st sr off9) := by
  unfold Statement opcodeOf encode
  repeat rw [field_append_high]
  all_goals first | rfl | decide

theorem sti (sr : Reg) (off9 : BitVec 9) : Statement (.sti sr off9) := by
  unfold Statement opcodeOf encode
  repeat rw [field_append_high]
  all_goals first | rfl | decide

theorem str (sr : Reg) (base : Reg) (off6 : BitVec 6) : Statement (.str sr base off6) := by
  unfold Statement opcodeOf encode
  repeat rw [field_append_high]
  all_goals first | rfl | decide

theorem br (n : Bool) (z : Bool) (p : Bool) (off9 : BitVec 9) : Statement (.br n z p off9) := by
  unfold Statement opcodeOf encode
  repeat rw [field_append_high]
  all_goals first | rfl | decide

theorem jmp (base : Reg) : Statement (.jmp base) := by
  unfold Statement opcodeOf encode
  repeat rw [field_append_high]
  all_goals first | rfl | decide

theorem jsr (off11 : BitVec 11) : Statement (.jsr off11) := by
  unfold Statement opcodeOf encode
  repeat rw [field_append_high]
  all_goals first | rfl | decide

theorem jsrr (base : Reg) : Statement (.jsrr base) := by
  unfold Statement opcodeOf encode
  repeat rw [field_append_high]
  all_goals first | rfl | decide

theorem rti : Statement .rti := by
  unfold Statement
  decide

theorem trap (vect : Byte) : Statement (.trap vect) := by
  unfold Statement opcodeOf encode
  repeat rw [field_append_high]
  all_goals first | rfl | decide

theorem reserved1101 (low : BitVec 12) : Statement (.reserved1101 low) := by
  unfold Statement opcodeOf encode
  repeat rw [field_append_high]
  all_goals rfl

end Sys2Proof.Laws.EncodedOpcode
end

