-- ==== Sys2Proof/Tests/Slice0.lean ====
section
/-! SUPPORT. The model's own tests. Expected results are those of spec/95_test_vectors.md (V<n>) and of the rules named;
a witness meets the hypotheses of the statement it is named after. -/

namespace Sys2Proof.Tests

open Sys2Proof.Machine

/-! ### Helpers -/

/-- What `f` reads in the next state, if there is one. -/
def after {α : Type} (o : Host.Outcome State Fault Refusal) (f : State → α) : Option α :=
  match o with
  | .next t => some (f t)
  | .fault _ => none
  | .refused _ => none

def isNext (o : Host.Outcome State Fault Refusal) : Bool := (after o fun _ => ()).isSome

def isFault (o : Host.Outcome State Fault Refusal) (f : Fault) : Bool :=
  match o with
  | .next _ => false
  | .fault g => g == f
  | .refused _ => false

def isRefused (o : Host.Outcome State Fault Refusal) (r : Refusal) : Bool :=
  match o with
  | .next _ => false
  | .fault _ => false
  | .refused q => q == r

def isOk (d : Except DecodeError Instr) (i : Instr) : Bool :=
  match d with
  | .ok j => j == i
  | .error _ => false

def isError (d : Except DecodeError Instr) (e : DecodeError) : Bool :=
  match d with
  | .ok _ => false
  | .error f => f == e

/-- The reset machine with the Word `w` at 0x3000, where it is fetched. -/
def loaded (w : Word) : State := State.reset.writeMem 0x3000#16 w

/-- The same with the Word at `a` and PC there. -/
def loadedAt (a w : Word) : State := (State.reset.writeMem a w).setPc a

/-! ### WellFormed: a term for each check, which the check refuses -/

theorem test_reserved_opcode_is_illformed : (Instr.reserved1101 0#12).wellFormed = false := by decide

theorem test_trap_is_wellformed : (Instr.trap 0xFF#8).wellFormed = true := by decide

/-! ### Decoding: one Word per constructor, written out from R56 to R66 -/

theorem test_decode_addReg : isOk (decode true 0b0001000001000010#16) (.addReg .r0 .r1 .r2) = true := by decide
theorem test_decode_addImm : isOk (decode true 0b0001011011111111#16) (.addImm .r3 .r3 0b11111#5) = true := by decide
theorem test_decode_andReg : isOk (decode true 0b0101010000000001#16) (.andReg .r2 .r0 .r1) = true := by decide
theorem test_decode_andImm : isOk (decode true 0b0101001001110000#16) (.andImm .r1 .r1 0b10000#5) = true := by decide
theorem test_decode_not : isOk (decode true 0b1001100101111111#16) (.not .r4 .r5) = true := by decide
theorem test_decode_ld : isOk (decode true 0b0010010000000101#16) (.ld .r2 5#9) = true := by decide
theorem test_decode_ldi : isOk (decode true 0b1010011000000010#16) (.ldi .r3 2#9) = true := by decide
theorem test_decode_ldr : isOk (decode true 0b0110100101111111#16) (.ldr .r4 .r5 0b111111#6) = true := by decide
theorem test_decode_lea : isOk (decode true 0b1110001000000011#16) (.lea .r1 3#9) = true := by decide
theorem test_decode_st : isOk (decode true 0b0011001111111110#16) (.st .r1 0b111111110#9) = true := by decide
theorem test_decode_sti : isOk (decode true 0b1011010000000000#16) (.sti .r2 0#9) = true := by decide
theorem test_decode_str : isOk (decode true 0b0111000001011111#16) (.str .r0 .r1 31#6) = true := by decide
theorem test_decode_br : isOk (decode true 0b0000101000000010#16) (.br true false true 2#9) = true := by decide
theorem test_decode_jmp : isOk (decode true 0b1100000010000000#16) (.jmp .r2) = true := by decide
theorem test_decode_jsr : isOk (decode true 0b0100110000000000#16) (.jsr 0b10000000000#11) = true := by decide
theorem test_decode_jsrr : isOk (decode true 0b0100000011000000#16) (.jsrr .r3) = true := by decide
theorem test_decode_rti : isOk (decode true 0b1000000000000000#16) .rti = true := by decide
theorem test_decode_trap : isOk (decode true 0b1111000000100101#16) (.trap 0x25#8) = true := by decide
/-- V55: the reserved row decodes to nothing. -/
theorem test_decode_reserved :
    isError (decode false 0b1101000000000000#16) (.reservedOpcode 0xD000#16) = true := by decide
/-- V58, V60b: wrong fixed fields, with and without `STRICT_FIELDS`. -/
theorem test_decode_fixed_fields :
    isError (decode true 0x9000#16) (.fixedFields 0x9000#16) = true ∧
      isOk (decode false 0x9000#16) (.not .r0 .r0) = true ∧ isOk (decode false 0xC1C1#16) (.jmp .r7) = true := by decide
theorem test_decodeTableWord :
    decodeTableWord 16 0x1042 = some (.addReg .r0 .r1 .r2) ∧ decodeTableWord 16 0xD000 = none := by decide
theorem test_withFetchWord :
    after (step (State.reset.withFetchWord 16 0x1042)) (fun t => (t.pc, t.status)) = some (0x3001#16, .running) := by
  decide

/-! ### One step per instruction -/

/-- V1. -/
theorem test_add_overflows :
    after (step ((loaded 0x1042#16).setReg .r1 0x7FFF#16 |>.setReg .r2 1#16))
      (fun t => (t.regs.r0, t.cond, t.pc)) = some (0x8000#16, .n, 0x3001#16) := by decide
/-- V3: DR is both sources. -/
theorem test_add_doubles :
    after (step ((loaded 0x1241#16).setReg .r1 0x4000#16)) (fun t => (t.regs.r1, t.cond)) =
      some (0x8000#16, .n) := by decide
/-- V5. -/
theorem test_addImm_negative :
    after (step ((loaded 0x1030#16).setReg .r0 0x0010#16)) (fun t => (t.regs.r0, t.cond)) = some (0#16, .z) := by decide
/-- V61: PC wraps. -/
theorem test_pc_wraps :
    after (step (loadedAt 0xFFFF#16 0x1020#16)) (fun t => (t.pc, t.cond)) = some (0#16, .z) := by decide
/-- V7. -/
theorem test_and_zero :
    after (step ((loaded 0x5401#16).setReg .r0 0x00F0#16 |>.setReg .r1 0x0F0F#16)) (fun t => (t.regs.r2, t.cond)) =
      some (0#16, .z) := by decide
/-- V10. -/
theorem test_andImm_sign_extends :
    after (step ((loaded 0x5270#16).setReg .r1 0x1234#16)) (fun t => (t.regs.r1, t.cond)) =
      some (0x1230#16, .p) := by decide
/-- V13. -/
theorem test_not :
    after (step ((loaded 0x907F#16).setReg .r1 0x8000#16)) (fun t => (t.regs.r0, t.cond)) =
      some (0x7FFF#16, .p) := by decide
/-- V15. -/
theorem test_ld_wraps :
    after (step ((loadedAt 0x0010#16 0x2100#16).writeMem 0xFF11#16 0x22#16)) (fun t => (t.regs.r0, t.cond, t.pc)) =
      some (0x22#16, .p, 0x11#16) := by decide
/-- V17: the flags follow the final Word. -/
theorem test_ldi :
    after (step ((loaded 0xA602#16).writeMem 0x3003#16 0x4000#16 |>.setCond .n)) (fun t => (t.regs.r3, t.cond)) =
      some (0#16, .z) := by decide
/-- V20: the base is DR. -/
theorem test_ldr_base_is_dr :
    after (step ((loaded 0x6241#16).writeMem 0#16 5#16 |>.setReg .r1 0xFFFF#16)) (fun t => (t.regs.r1, t.cond)) =
      some (5#16, .p) := by decide
/-- V23. -/
theorem test_lea_sets_n :
    after (step (loadedAt 0x7FFF#16 0xE000#16)) (fun t => (t.regs.r0, t.cond, t.pc)) =
      some (0x8000#16, .n, 0x8000#16) := by decide
/-- V26: ST into its own Word. -/
theorem test_st_own_word :
    after (step ((loaded 0x31FF#16).setReg .r0 0x1042#16)) (fun t => (t.mem.read 0x3000#16, t.pc, t.regs.r0)) =
      some (0x1042#16, 0x3001#16, 0x1042#16) := by decide
/-- V28: STI over its own pointer. -/
theorem test_sti_over_pointer :
    after (step ((loaded 0xB400#16).writeMem 0x3001#16 0x3001#16 |>.setReg .r2 0x1234#16))
      (fun t => t.mem.read 0x3001#16) = some 0x1234#16 := by decide
/-- V31. -/
theorem test_str_wraps :
    after (step ((loaded 0x7060#16).setReg .r0 9#16 |>.setReg .r1 0x10#16)) (fun t => t.mem.read 0xFFF0#16) =
      some 9#16 := by decide
/-- V32e, V33. -/
theorem test_br :
    after (step (loaded 0x0A02#16)) (·.pc) = some 0x3001#16 ∧
      after (step ((loadedAt 0xFF00#16 0x02FF#16).setCond .p)) (·.pc) = some 0#16 := by decide
/-- V36: RET. -/
theorem test_ret : after (step ((loaded 0xC1C0#16).setReg .r7 0x3001#16)) (·.pc) = some 0x3001#16 := by decide
/-- V40. -/
theorem test_jsr :
    after (step (loadedAt 0xFC00#16 0x4BFF#16)) (fun t => (t.regs.r7, t.pc)) = some (0xFC01#16, 0#16) := by decide
/-- V42, V42b: `JSRR R7` by the parameter. -/
theorem test_jsrr_r7 :
    after (step ((loaded 0x41C0#16).setReg .r7 0x6000#16)) (fun t => (t.regs.r7, t.pc)) =
      some (0x3001#16, 0x3001#16) ∧
    after (step { (loaded 0x41C0#16).setReg .r7 0x6000#16 with
      params := { Params.specDefault with jsrrLinkFirst := false } }) (fun t => (t.regs.r7, t.pc)) =
        some (0x3001#16, 0x6000#16) := by decide
/-- V43. -/
theorem test_rti :
    after (step (loaded 0x8000#16)) (fun t => (t.status, t.pc)) =
      some (.failed (.unsupported .rti), 0x3001#16) := by decide
/-- V47: OUT, the low byte. -/
theorem test_out :
    after (step { (loaded 0xF021#16).setReg .r0 0x1234#16 with writeAnswers := [.accepted] })
      (fun t => (t.output, t.regs.r7, t.status)) = some ([0x34#8], 0x3001#16, .running) := by decide
/-- V49: PUTS, a Word whose low byte is zero is no terminator. -/
theorem test_puts :
    after (step { loaded 0xF022#16 with
        regs := { RegFile.zero with r0 := 0x4000#16 }
        mem := [(0x3000, 0xF022#16), (0x4000, 0x0148#16), (0x4001, 0x0100#16), (0x4002, 0x0041#16)]
        writeAnswers := [.accepted] })
      (fun t => (t.output, t.regs.r0, t.ioLog.length)) = some ([0x48#8, 0#8, 0x41#8], 0x4000#16, 1) := by decide
/-- V55: the decode fault. -/
theorem test_reserved_step :
    after (step (loaded 0xD000#16)) (fun t => (t.status, t.pc)) =
      some (.failed (.decode 0xD000#16 0x3000#16), 0x3000#16) := by decide

/-! ### Memory and the launch -/

theorem test_write_zero_unlists :
    ((State.reset.writeMem 5#16 7#16).writeMem 5#16 0#16).mem = [] := by decide

theorem test_writes_sort :
    ((State.reset.writeMem 9#16 7#16).writeMem 5#16 8#16).mem = [(5, 8#16), (9, 7#16)] := by decide

/-! ### Witnesses of the statements' hypotheses -/

/-- A machine that has just been created. -/
def fresh : State := State.created Params.specDefault RegFile.zero [] [] []

/-- GETC at 0x3000, with the given answers. -/
def getc (l : List ReadAnswer) : State := { loaded 0xF020#16 with readAnswers := l }

/-- OUT at 0x3000, with the given answers. -/
def out (l : List WriteAnswer) : State := { loaded 0xF021#16 with writeAnswers := l }

theorem witness_DecodeAndEncodeAgree :
    Instr.rti.WellFormed ∧ isOk (decode true 0x8000#16) .rti = true := by decide
theorem witness_DecodeErrorsExactly :
    0x1008#16 &&& 0xF000#16 ≠ 0xD000#16 ∧ wrongFixedFields 0x1008#16 = true ∧ withFixedFields 0x1008#16 = 0x1000#16 := by
  decide
theorem witness_DecoderGivesWellFormed : isOk (decode false 0xFFFF#16) (.trap 0xFF#8) = true := by decide
theorem witness_ExtensionBits :
    (sext 0b10000#5).getLsbD 15 = true ∧ (sext 0b01111#5).getLsbD 5 = false ∧ (zext 0xFF#8).getLsbD 8 = false ∧
      (sext 1#1).getLsbD 15 = true ∧ (sext 0x8000#16).getLsbD 14 = false := by decide
theorem witness_ImmediateRanges :
    (sext 0b10000#5).toInt = -16 ∧ (sext 0b01111#5).toInt = 15 ∧ (sext 0x400#11).toInt = -1024 ∧
      (sext 1#1).toInt = -1 ∧ (sext 0x7FFF#16).toInt = 32767 := by decide
theorem witness_InitSetsPcCondStatus : fresh.stage = .created ∧ isNext (initOnce fresh) = true := by decide
theorem witness_InitExactlyOnce :
    fresh.stage = .created ∧ isRefused (step fresh) .notInitialised = true ∧ State.reset.stage ≠ .created ∧
      isRefused (initOnce State.reset) .alreadyInitialised = true := by decide
theorem witness_HostWritesBeforeTheFirstStep :
    State.reset.stage ≠ .started ∧ fresh.stage ≠ .started ∧ fresh.stage = .created ∧
      isNext (hostWrite (.pc 1#16) fresh) = true ∧ State.reset.stage ≠ .created ∧
      isRefused (hostWrite (.pc 1#16) State.reset) .hostWriteTooLate = true ∧
      isRefused (hostWrite (.reg .r0 1#16) (State.reset.setStage .started)) .hostWriteTooLate = true := by decide
theorem witness_StepRunsTheDecodedInstruction :
    (loaded 0x1042#16).MayStep ∧ isOk (decode true ((loaded 0x1042#16).mem.read 0x3000#16)) (.addReg .r0 .r1 .r2) = true ∧
      (loaded 0xDFFF#16).MayStep ∧
      isError (decode true ((loaded 0xDFFF#16).mem.read 0x3000#16)) (.reservedOpcode 0xDFFF#16) = true := by decide
theorem witness_DecodeFaultLeavesEverything :
    (loaded 0xD000#16).MayStep ∧ (loaded 0xD000#16).mem.read 0x3000#16 &&& 0xF000#16 = 0xD000#16 ∧
      (loaded 0xF125#16).MayStep ∧ (loaded 0xF125#16).params.strictFields = true ∧
      wrongFixedFields ((loaded 0xF125#16).mem.read 0x3000#16) = true := by decide
theorem witness_StepDefinedOnlyWhileRunning :
    fresh.stage = .created ∧ (State.reset.setStatus .halted).stage ≠ .created ∧
      (State.reset.setStatus .halted).status ≠ .running ∧
      isRefused (step (State.reset.setStatus .halted)) .runEnded = true ∧ isNext (step State.reset) = true := by decide
theorem witness_OnlyTheHaltTrapHalts :
    after (step (loaded 0xF025#16)) (·.status) = some .halted ∧ (State.reset.setStatus .halted).Succeeded := by decide
theorem witness_OnlyTheHaltTrapHalts_failed :
    (State.reset.setStatus (.failed (.unsupported .rti))).Failed := ⟨_, rfl⟩
theorem witness_DriverLoopsUntilTheEnd :
    State.reset.status = .running ∧ isNext (step State.reset) = true ∧
      after (drive 3 (loaded 0xF025#16)) (fun t => (t.status, t.pc)) = some (.halted, 0x3001#16) := by decide
theorem witness_FlagsFollowDrOrStay :
    isNext (exec (.lea .r0 0#9) State.reset) = true ∧ flagDest (.lea .r0 0#9) = some .r0 ∧
      isNext (exec (.trap 0x25#8) State.reset) = true ∧ flagDest (.trap 0x25#8) = none := by decide
/-- V45, V46, and a host that never answers. -/
theorem witness_GetcFollowsTheAnswer :
    after (step (getc [.byte 0xFF#8])) (fun t => (t.regs.r0, t.regs.r7, t.cond)) = some (0xFF#16, 0x3001#16, .z) ∧
      after (step (getc [.failed ⟨1⟩])) (fun t => (t.regs.r0, t.regs.r7, t.status)) =
        some (0#16, 0x3001#16, .failed (.io ⟨1⟩)) ∧
      isFault (step (getc [.never])) .inputNeverAnswered = true := by decide
theorem witness_OutFollowsTheAnswer :
    (0#8).toNat = ((out [.accepted]).reg .r0).toNat % 256 ∧ after (step (out [.accepted])) (·.output) = some [0#8] ∧
      after (step (out [.failed ⟨1⟩ 0])) (·.output) = some [] ∧
      after (step (out [.failed ⟨1⟩ 1])) (·.output) = some [0#8] := by decide
/-- V48, V50: the empty string, and a scan that wraps. -/
theorem witness_PutsWritesTheString :
    State.reset.mem.read (State.reset.reg .r0 + BitVec.ofNat 16 0) = 0#16 ∧
      after (exec (.trap 0x22#8) { State.reset with writeAnswers := [.accepted] }) (·.ioLog) =
        some [.wrote (.bytes [])] ∧
      after (exec (.trap 0x22#8) { State.reset with
        regs := { RegFile.zero with r0 := 0xFFFF#16 }, mem := [(0xFFFF, 0x41#16)], writeAnswers := [.failed ⟨0⟩ 1] })
          (·.output) = some [0x41#8] := by decide
/-- `n` Words 1 from address `lo` on. -/
def onesFrom : Nat → Nat → Memory
  | _, 0 => []
  | lo, n + 1 => (lo, 1#16) :: onesFrom (lo + 1) n

theorem read_onesFrom (a : Word) : ∀ n lo, lo ≤ a.toNat → a.toNat < lo + n → (onesFrom lo n).read a = 1#16
  | 0, _, h, h' => by omega
  | n + 1, lo, h, h' => by
    unfold onesFrom Memory.read
    split
    · rfl
    · exact read_onesFrom a n (lo + 1) (by omega) (by omega)

/-- V51: a memory without a zero Word. -/
theorem witness_PutsStuckExactlyWithoutZeroWord :
    ∀ a : Word, ({ State.reset with mem := onesFrom 0 65536 } : State).mem.read a ≠ 0#16 := by
  intro a
  rw [show ({ State.reset with mem := onesFrom 0 65536 } : State).mem = onesFrom 0 65536 from rfl,
    read_onesFrom a 65536 0 (Nat.zero_le _) (by have := a.isLt; omega)]
  decide

theorem witness_OtherVectorsUnsupported :
    0x00#8 ∉ recognisedVectors ∧ 0x1F#8 ∉ recognisedVectors ∧ 0x23#8 ∉ recognisedVectors ∧ 0x24#8 ∉ recognisedVectors ∧
      0x26#8 ∉ recognisedVectors ∧ 0xFF#8 ∉ recognisedVectors := by decide
theorem witness_EveryTrapLinksR7 :
    isNext (exec (.trap 0x20#8) (getc [.byte 0#8])) = true ∧ isNext (exec (.trap 0x25#8) State.reset) = true := by decide
theorem witness_IoFaultState :
    (getc [.failed ⟨7⟩]).status = .running ∧
      after (exec (.trap 0x20#8) (getc [.failed ⟨7⟩])) (·.status) = some (.failed (.io ⟨7⟩)) ∧
      after (exec (.trap 0x21#8) (out [.failed ⟨7⟩ 1])) (·.status) = some (.failed (.io ⟨7⟩)) ∧
      after (exec (.trap 0x22#8) (out [.failed ⟨7⟩ 9])) (·.status) = some (.failed (.io ⟨7⟩)) := by decide
theorem witness_MissingAnswersAreFree : State.reset.readAnswers = [] ∧ State.reset.writeAnswers = [] := by decide
theorem witness_ReservedOpcodeIsADecodeFault :
    (loaded 0xDFFF#16).MayStep ∧ (loaded 0xDFFF#16).mem.read (loaded 0xDFFF#16).pc = 0b1101#4 ++ 0xFFF#12 := by decide
theorem witness_PcAfterEveryStep :
    isNext (step (loaded 0x1042#16)) = true ∧ pcAfter 0x3000#16 State.reset (.addReg .r0 .r1 .r2) = some 0x3001#16 ∧
      isNext (step (loaded 0xD000#16)) = true := by decide
theorem witness_OnlyStoresChangeMemory :
    isNext (exec (.st .r0 0x1FF#9) State.reset) = true ∧
      storeAddress State.reset (.st .r0 0x1FF#9) = some 0x2FFF#16 ∧ storedReg (.st .r0 0x1FF#9) = some .r0 ∧
      isNext (exec (.jmp .r0) State.reset) = true ∧ storeAddress State.reset (.jmp .r0) = none := by decide
theorem witness_OnlyNamedRegistersChange : isNext (exec (.jsr 0#11) State.reset) = true := by decide
theorem witness_StepsKeepTheParameters : isNext (step State.reset) = true := by decide
theorem witness_AtMostOneIoCallPerStep :
    after (step (getc [.byte 1#8])) (·.ioLog) = some [.readByte 1#8] ∧ after (step State.reset) (·.ioLog) = some [] := by
  decide
/-- P5's first two instructions: ST over the next Word, and (V26) over its own. -/
theorem witness_StoresAreSeenByTheNextFetch :
    (loaded 0x3000#16).MayStep ∧ isOk (decode true ((loaded 0x3000#16).mem.read 0x3000#16)) (.st .r0 0#9) = true ∧
      storeAddress { loaded 0x3000#16 with pc := 0x3001#16 } (.st .r0 0#9) = some 0x3001#16 ∧
      storeAddress { loaded 0x31FF#16 with pc := 0x3001#16 } (.st .r0 0x1FF#9) = some 0x3000#16 ∧
      isOk (decode true ((loaded 0x3000#16).reg .r0)) (.br false false false 0#9) = true := by decide
theorem witness_NothingElseFaults :
    after (step (loaded 0xD000#16)) (·.status) = some (.failed (.decode 0xD000#16 0x3000#16)) ∧
      after (step (loaded 0x8000#16)) (·.status) = some (.failed (.unsupported .rti)) ∧
      after (step (loaded 0xF0FF#16)) (·.status) = some (.failed (.unsupported (.trapVector 0xFF#8))) ∧
      after (step (getc [.failed ⟨0⟩])) (·.status) = some (.failed (.io ⟨0⟩)) := by decide
theorem witness_OnlyPutsAndGetcCanBeStuck :
    (loaded 0x1042#16).MayStep ∧ isOk (decode true ((loaded 0x1042#16).mem.read 0x3000#16)) (.trap 0x20#8) = false ∧
      isOk (decode true ((loaded 0x1042#16).mem.read 0x3000#16)) (.trap 0x22#8) = false := by decide
theorem witness_StepKeepsTheInvariant : (loaded 0xF025#16).Inv ∧ isNext (step (loaded 0xF025#16)) = true := by decide
theorem witness_RunsKeepTheInvariant : (loaded 0xF025#16).Inv ∧ isNext (drive 2 (loaded 0xF025#16)) = true := by decide
theorem witness_LaunchKeepsTheInvariant :
    fresh.Inv ∧ isNext (initOnce fresh) = true ∧ isNext (hostWrite (.mem 0xFFFF#16 1#16) fresh) = true := by decide
/-- GETC, answered with a byte, then HALT. -/
def getcThenHalt : State := (getc [.byte 0x61#8]).writeMem 0x3001#16 0xF025#16

/-- The one read is answered, and after the halt the driver stands still. -/
theorem getcThenHalt_every_read_answered : getcThenHalt.EveryReadAnswered := by
  obtain ⟨u, hu, hs⟩ : ∃ u, drive 2 getcThenHalt = .next u ∧ u.status = .halted := ⟨_, rfl, rfl⟩
  intro n t hd hr
  match n with
  | 0 =>
    cases hd
    exact .inl ⟨0x61#8, rfl⟩
  | 1 =>
    cases hd
    exact absurd hr.2 (by decide)
  | n + 2 =>
    rw [Nat.add_comm, drive_add hu] at hd
    have ht : u = t := by cases n <;> simpa [drive, hs] using hd
    rw [← ht] at hr
    exact absurd hr.1.2 (by simp [hs])

theorem witness_AnsweredReadsNeverWait :
    getcThenHalt.EveryReadAnswered ∧ getcThenHalt.ReadsInput ∧ isFault (drive 1 (getc [.never])) .inputNeverAnswered = true :=
  ⟨getcThenHalt_every_read_answered, by decide, by decide⟩
/-- A program that reads and halts, a read never answered, and a run cancelled after no step and after one. -/
theorem witness_TerminationRestsOnTheHost :
    getcThenHalt.stage ≠ .created ∧ getcThenHalt.TerminationAssumptions .keepsCalling ∧
      after (drive 2 getcThenHalt) (·.status) = some .halted ∧
      (getc [.never]).MayStep ∧ isOk (decode true (getc [.never]).fetch) (.trap 0x20#8) = true ∧
      (getc [.never]).takeReadAnswer.1 = .never ∧
      after (drive 0 (loaded 0xF025#16)) (·.status) = some .running ∧
      after (drive 1 State.reset) (·.status) = some .running ∧
      HostCalls.allow (.cancelsAfter 1) 1 = true ∧ HostCalls.allow (.cancelsAfter 1) 2 = false :=
  ⟨by decide, ⟨getcThenHalt_every_read_answered, fun _ => rfl⟩, by decide, by decide, by decide, by decide, by decide,
    by decide, by decide, by decide⟩

end Sys2Proof.Tests
end

section
/-! PROOFS. The operand extensions, the host's view of the register slots, and the frame of the launch's record. -/

namespace Sys2Proof.Machine

/-! ### The extension of fields (R10) -/

theorem sext_getLsbD {n : Nat} (v : BitVec n) {k : Nat} (hk : k < 16) :
    (sext v).getLsbD k = if k < n then v.getLsbD k else v.getLsbD (n - 1) := by
  rw [sext, BitVec.getLsbD_signExtend, BitVec.msb_eq_getLsbD_last]
  simp [hk]

theorem zext_getLsbD {n : Nat} (v : BitVec n) {k : Nat} (hk : k < 16) :
    (zext v).getLsbD k = if k < n then v.getLsbD k else false := by
  rw [zext, BitVec.getLsbD_setWidth, decide_eq_true hk, Bool.true_and]
  split
  · rfl
  · exact BitVec.getLsbD_of_ge v k (by omega)

theorem sext_toInt {n : Nat} (v : BitVec n) (hn : n ≤ 16) : (sext v).toInt = v.toInt :=
  BitVec.toInt_signExtend_of_le hn

/-! ### COND as the host reads it (R28) -/

theorem Cond.toWord_inj {c d : Cond} : c.toWord = d.toWord ↔ c = d := by
  cases c <;> cases d <;> decide

/-! ### What effects and steps keep of the launch -/

theorem linkR7_keepsLaunch (s : State) : KeepsLaunch s (linkR7 s) := ⟨rfl, rfl⟩

/-- No trap service changes the parameters or the stage, whatever the host answers. -/
theorem execTrap_keepsLaunch {v : Byte} {s t : State} (h : execTrap v s = .next t) : KeepsLaunch s t := by
  rcases execTrap_next h with
    ⟨-, r, -, ⟨b, rfl⟩ | ⟨e, rfl⟩⟩ | ⟨c, -, r, -, rfl | ⟨e, n, rfl⟩⟩ | ⟨-, rfl⟩ | ⟨-, rfl⟩
  all_goals exact linkR7_keepsLaunch s

/-- No effect changes the parameters or the stage. -/
theorem exec_keepsLaunch {i : Instr} {s t : State} (h : exec i s = .next t) : KeepsLaunch s t := by
  rcases exec_next h with ⟨dr, v, -, rfl⟩ | ⟨a, r, -, -, rfl⟩ | ⟨-, v, rfl⟩ | ⟨base, -, rfl⟩ | ⟨-, v, rfl⟩ |
    ⟨-, rfl⟩ | ⟨v, -, htrap⟩ | ⟨low, -, rfl⟩
  · exact ⟨rfl, rfl⟩
  · exact ⟨rfl, rfl⟩
  · exact ⟨rfl, rfl⟩
  · exact ⟨rfl, rfl⟩
  · exact linkR7_keepsLaunch s
  · exact ⟨rfl, rfl⟩
  · exact execTrap_keepsLaunch htrap
  · exact ⟨rfl, rfl⟩

/-! ### The obligations -/

/-- Settles O5: each extension's bits, from the library's bits of `signExtend` and `setWidth`. -/
theorem extensionBits : Obligations.ExtensionBits := by
  intro n v k _ _ hk
  exact ⟨sext_getLsbD v hk, zext_getLsbD v hk⟩

/-- Settles O6: sign extension to a wider word keeps the signed value, which lies in the range of the field's width. -/
theorem immediateRanges : Obligations.ImmediateRanges := by
  intro n v _ hn
  rw [sext_toInt v hn]
  exact ⟨rfl, BitVec.le_toInt v, Int.le_sub_one_of_lt BitVec.toInt_lt⟩

/-- Settles O50: a step marks the run as begun, and then either records the decode fault or runs an effect, and neither
changes the parameters or the stage. -/
theorem stepsKeepTheParameters : Obligations.StepsKeepTheParameters := by
  intro s t h
  obtain ⟨-, -, ⟨e, -, rfl⟩ | ⟨i, -, hi⟩⟩ := step_next h
  · exact ⟨rfl, rfl⟩
  · exact exec_keepsLaunch hi

/-- Settles O12: the general registers and PC are read as they are, and COND's three numbers are different. -/
theorem hostReadsTheTenSlots : Obligations.HostReadsTheTenSlots := by
  intro s
  exact ⟨fun _ => rfl, rfl, Cond.toWord_inj (d := .p), Cond.toWord_inj (d := .z), Cond.toWord_inj (d := .n)⟩

end Sys2Proof.Machine
end

section
/-! PROOFS. What an effect does to PC, to the general registers and to the I/O side, and the launch's invariant. -/

namespace Sys2Proof

/-! ### The decoder gives instructions only (R71) -/

theorem checkFixed_wellFormed {strict ok : Bool} {w : Word} {i j : Instr} (h : checkFixed strict ok w i = .ok j)
    (hi : i.WellFormed) : j.WellFormed := by
  unfold checkFixed at h
  split at h
  · exact absurd h nofun
  · cases h
    exact hi

/-- A row of the decoder answers an instruction outright, after the look at bit 5 or bit 11, after the check of its
fixed fields, or not at all (opcode 1101). -/
theorem decode_wellFormed {strict : Bool} {w : Word} {i : Instr} (h : decode strict w = .ok i) : i.WellFormed := by
  have choose : ∀ {b ok : Bool} {j k : Instr}, j.WellFormed → k.WellFormed →
      (if b then .ok j else checkFixed strict ok w k) = .ok i → i.WellFormed := by
    intro b ok j k hj hk h
    split at h
    · cases h
      exact hj
    · exact checkFixed_wellFormed h hk
  unfold decode at h
  split at h
  case h_2 | h_5 | h_6 => exact choose rfl rfl h
  case h_9 | h_10 | h_13 | h_15 => exact checkFixed_wellFormed h rfl
  case h_16 => exact absurd h nofun
  all_goals
    cases h
    rfl

end Sys2Proof

namespace Sys2Proof.Machine

/-! ### The frame of a register write, and TRAP's -/

theorem setReg_keepsRegs (s : State) (r : Reg) (v : Word) (rs : List Reg) : KeepsRegs (r :: rs) s (s.setReg r v) :=
  fun q hq => (State.reg_setReg s r q v).trans (if_neg (List.ne_of_not_mem_cons hq))

/-- TRAP links R7 and leaves alone all that `TrapFrame` names; R0 is written by GETC alone (R110, R118, R119). -/
theorem execTrap_frame {v : Byte} {s t : State} (h : execTrap v s = .next t) :
    TrapFrame (if v = 0x20#8 then [.r0] else []) s t := by
  have link : ∀ rs, TrapFrame rs s (linkR7 s) := fun rs =>
    ⟨State.reg_setReg s .r7 .r7 s.pc, setReg_keepsRegs s .r7 s.pc rs, rfl, rfl, fun _ => rfl, linkR7_keepsLaunch s⟩
  rcases execTrap_next h with
    ⟨rfl, r, -, ⟨b, rfl⟩ | ⟨e, rfl⟩⟩ | ⟨c, -, r, -, rfl | ⟨e, n, rfl⟩⟩ | ⟨-, rfl⟩ | ⟨-, rfl⟩
  · obtain ⟨h7, hregs, hrest⟩ := link [.r0]
    refine ⟨h7, fun q hq => ?_, hrest⟩
    have hq0 : q ≠ .r0 := List.ne_of_not_mem_cons (List.not_mem_of_not_mem_cons hq)
    rw [State.reg_setReg, if_neg hq0]
    exact hregs q hq
  all_goals exact link _

/-! ### PC (R24) -/

theorem condSelected_iff (n z p : Bool) (c : Cond) :
    condSelected n z p c = true ↔ (n = true ∧ c = .n) ∨ (z = true ∧ c = .z) ∨ (p = true ∧ c = .p) := by
  cases c <;> simp [condSelected]

theorem execBr_pc {n z p : Bool} {off9 : BitVec 9} {s t : State} (h : execBr n z p off9 s = .next t) :
    t.pc = if condSelected n z p s.cond then pcRelative off9 s else s.pc := by
  cases h
  split <;> rfl

/-- The base register is read after the link or before it: the two differ for R7 only (R108). -/
theorem execJsrr_pc {base : Reg} {s t : State} (h : execJsrr base s = .next t) :
    t.pc = if base = .r7 ∧ s.params.jsrrLinkFirst = true then s.pc else s.reg base := by
  cases h
  cases hf : s.params.jsrrLinkFirst with
  | true => simpa [hf, linkR7_eq] using State.reg_setReg s .r7 base s.pc
  | false => simp

/-- An instruction's effect, run with PC at A + 1, leaves PC as R24's table says. -/
theorem exec_pcAfter {i : Instr} {s t : State} (hi : i.WellFormed) (h : exec i s.advancePc = .next t) :
    pcAfter s.pc s i = some t.pc := by
  cases i with
  | addReg | addImm | andReg | andImm | not | ld | ldi | ldr | lea | st | sti | str | jmp | jsr | rti =>
    cases h
    rfl
  | br n z p off9 =>
    rw [execBr_pc h, pcAfter]
    simp only [condSelected_iff]
    rfl
  | jsrr base =>
    rw [execJsrr_pc h]
    rfl
  | trap v =>
    obtain ⟨-, -, hpc, -⟩ := execTrap_frame h
    rw [hpc]
    rfl
  | reserved1101 low => exact absurd hi nofun

/-! ### The general registers (R21, R22) -/

theorem writtenRegs_of_flagDest {i : Instr} {dr : Reg} (h : flagDest i = some dr) : writtenRegs i = [dr] := by
  cases i <;> cases h <;> rfl

theorem writtenRegs_trap (v : Byte) :
    writtenRegs (.trap v) = .r7 :: (if v = 0x20#8 then [.r0] else []) := by
  rw [writtenRegs]
  split <;> rfl

/-- An effect writes the general registers that `writtenRegs` names, and no other. -/
theorem exec_keepsRegs {i : Instr} {s t : State} (h : exec i s = .next t) : KeepsRegs (writtenRegs i) s t := by
  rcases exec_next h with ⟨dr, v, hdr, rfl⟩ | ⟨a, r, -, -, rfl⟩ | ⟨-, v, rfl⟩ | ⟨base, -, rfl⟩ |
    ⟨⟨off11, rfl⟩ | ⟨base, rfl⟩, v, rfl⟩ | ⟨-, rfl⟩ | ⟨v, rfl, htrap⟩ | ⟨low, -, rfl⟩
  · rw [writtenRegs_of_flagDest hdr]
    exact setReg_keepsRegs s dr v []
  · exact fun _ _ => rfl
  · exact fun _ _ => rfl
  · exact fun _ _ => rfl
  · exact setReg_keepsRegs s .r7 s.pc []
  · exact setReg_keepsRegs s .r7 s.pc []
  · exact fun _ _ => rfl
  · rw [writtenRegs_trap]
    obtain ⟨-, hregs, -⟩ := execTrap_frame htrap
    exact hregs
  · exact fun _ _ => rfl

/-! ### The I/O side (R34, R52) -/

/-- From `s` to `t` the calls `l` were recorded, and of each list of the host's answers at most the first was used
up. -/
def RecordsIo (l : List IoEvent) (s t : State) : Prop :=
  t.ioLog = s.ioLog ++ l ∧
    (t.readAnswers = s.readAnswers ∨ ∃ a, s.readAnswers = a :: t.readAnswers) ∧
    (t.writeAnswers = s.writeAnswers ∨ ∃ a, s.writeAnswers = a :: t.writeAnswers)

theorem recordsIo_nil_of_keepsIo {s t : State} (h : KeepsIo s t) : RecordsIo [] s t := by
  obtain ⟨hlog, hreads, hwrites⟩ := h
  exact ⟨by rw [hlog, List.append_nil], .inl hreads, .inl hwrites⟩

/-- GETC, OUT and PUTS make one call each, the other vectors none. -/
theorem execTrap_recordsIo {v : Byte} {s t : State} (h : execTrap v s = .next t) :
    KeepsIo s t ∨ ((v = 0x20#8 ∨ v = 0x21#8 ∨ v = 0x22#8) ∧ ∃ e, RecordsIo [e] s t) := by
  rcases execTrap_next h with ⟨hv, r, hr, ht⟩ | ⟨c, hv, r, hr, ht⟩ | ⟨-, rfl⟩ | ⟨-, rfl⟩
  · refine .inr ⟨.inl hv, ?_⟩
    rcases ht with ⟨b, rfl⟩ | ⟨e, rfl⟩ <;> exact ⟨_, rfl, hr, .inl rfl⟩
  · refine .inr ⟨.inr (hv.imp And.left And.left), ?_⟩
    rcases ht with rfl | ⟨e, n, rfl⟩ <;> exact ⟨_, rfl, .inl rfl, hr⟩
  · exact .inl ⟨rfl, rfl, rfl⟩
  · exact .inl ⟨rfl, rfl, rfl⟩

/-- An effect leaves the I/O side alone, or makes one call, in GETC, OUT or PUTS. -/
theorem exec_recordsIo {i : Instr} {s t : State} (h : exec i s = .next t) :
    KeepsIo s t ∨ ∃ v e, i = .trap v ∧ (v = 0x20#8 ∨ v = 0x21#8 ∨ v = 0x22#8) ∧ RecordsIo [e] s t := by
  rcases exec_next h with ⟨dr, v, -, rfl⟩ | ⟨a, r, -, -, rfl⟩ | ⟨-, v, rfl⟩ | ⟨base, -, rfl⟩ | ⟨-, v, rfl⟩ |
    ⟨-, rfl⟩ | ⟨v, rfl, htrap⟩ | ⟨low, -, rfl⟩
  · exact .inl ⟨rfl, rfl, rfl⟩
  · exact .inl ⟨rfl, rfl, rfl⟩
  · exact .inl ⟨rfl, rfl, rfl⟩
  · exact .inl ⟨rfl, rfl, rfl⟩
  · exact .inl ⟨rfl, rfl, rfl⟩
  · exact .inl ⟨rfl, rfl, rfl⟩
  · exact (execTrap_recordsIo htrap).imp_right fun ⟨hv, e, he⟩ => ⟨v, e, rfl, hv, he⟩
  · exact .inl ⟨rfl, rfl, rfl⟩

/-- A step leaves the I/O side alone, or makes one call, its Word being a TRAP to GETC, OUT or PUTS. -/
theorem step_recordsIo {s t : State} (h : step s = .next t) :
    KeepsIo s t ∨ ∃ v e, decode s.params.strictFields s.fetch = .ok (.trap v) ∧
      (v = 0x20#8 ∨ v = 0x21#8 ∨ v = 0x22#8) ∧ RecordsIo [e] s t := by
  obtain ⟨-, -, ⟨e, -, rfl⟩ | ⟨i, hi, hexec⟩⟩ := step_next h
  · exact .inl ⟨rfl, rfl, rfl⟩
  · obtain hk | ⟨v, e, rfl, hv, he⟩ := exec_recordsIo hexec
    · exact .inl hk
    · exact .inr ⟨v, e, hi, hv, he⟩

/-! ### Answers the state does not hold (notes/assumptions/5.md) -/

theorem takeReadAnswer_eq_free {s : State} (h : s.readAnswers = []) :
    s.takeReadAnswer = (s.setReadAnswers [Config.freeReadAnswer s.ioLog]).takeReadAnswer := by
  have hs : s = s.setReadAnswers [] := by rw [← h]; rfl
  rw [hs]
  rfl

theorem takeWriteAnswer_eq_free {s : State} (h : s.writeAnswers = []) :
    s.takeWriteAnswer = (s.setWriteAnswers [Config.freeWriteAnswer s.ioLog]).takeWriteAnswer := by
  have hs : s = s.setWriteAnswers [] := by rw [← h]; rfl
  rw [hs]
  rfl

/-- GETC sees the state through the host's answer only. -/
theorem trapGetc_congr {s t : State} (h : s.takeReadAnswer = t.takeReadAnswer) : trapGetc s = trapGetc t := by
  rw [trapGetc, h, trapGetc]

/-- A write call sees the state through the host's answer only. -/
theorem ioWrite_congr (call : WriteCall) {s t : State} (h : s.takeWriteAnswer = t.takeWriteAnswer) :
    ioWrite call s = ioWrite call t := by
  rw [ioWrite, h, ioWrite]

theorem trapOut_congr {s t : State} (hregs : s.regs = t.regs) (h : s.takeWriteAnswer = t.takeWriteAnswer) :
    trapOut s = trapOut t := by
  rw [trapOut, State.reg, hregs]
  exact ioWrite_congr _ h

theorem trapPuts_congr {s t : State} (hregs : s.regs = t.regs) (hmem : s.mem = t.mem)
    (h : s.takeWriteAnswer = t.takeWriteAnswer) : trapPuts s = trapPuts t := by
  have hout : ∀ l, ioWrite (.bytes l) s = ioWrite (.bytes l) t := fun l => ioWrite_congr _ h
  simp only [trapPuts, State.reg, hregs, hmem, hout]

/-! ### The obligations -/

/-- Settles O47: a Word without a decoding leaves PC where it was, and each instruction as its row of R24's table
says. -/
theorem pcAfterEveryStep : Obligations.PcAfterEveryStep := by
  intro s t h
  obtain ⟨-, -, ⟨e, he, rfl⟩ | ⟨j, hj, hexec⟩⟩ := step_next h
  · exact ⟨fun i hi => absurd (he.symm.trans hi) nofun, fun _ _ => rfl⟩
  · refine ⟨fun i hi => ?_, fun e he => absurd (hj.symm.trans he) nofun⟩
    cases hj.symm.trans hi
    exact exec_pcAfter (s := s.setStage .started) (decode_wellFormed hj) hexec

/-- Settles O49, from the inversion of `exec` and TRAP's frame. -/
theorem onlyNamedRegistersChange : Obligations.OnlyNamedRegistersChange := fun _ _ _ h => exec_keepsRegs h

/-- Settles O51: the calls a step adds to the record are none, or the one of GETC, OUT or PUTS. -/
theorem atMostOneIoCallPerStep : Obligations.AtMostOneIoCallPerStep := by
  intro s t h
  obtain hk | ⟨v, e, hdec, hv, hlog, hreads, hwrites⟩ := step_recordsIo h
  · obtain ⟨hlog, hreads, hwrites⟩ := recordsIo_nil_of_keepsIo hk
    exact ⟨[], Nat.zero_le 1, hlog, hreads, hwrites, fun hl => absurd rfl hl⟩
  · exact ⟨[e], Nat.le_refl 1, hlog, hreads, hwrites, fun _ => ⟨v, hdec, hv⟩⟩

/-- Settles O45: the services see the host's answers through `takeReadAnswer` and `takeWriteAnswer`, which answer the
free value alike from an empty list and from one that holds it. -/
theorem missingAnswersAreFree : Obligations.MissingAnswersAreFree := by
  refine ⟨fun s h => ?_, ?_⟩
  · exact trapGetc_congr (takeReadAnswer_eq_free (s := linkR7 s) h)
  · rintro s v h (rfl | rfl)
    · exact trapOut_congr rfl (takeWriteAnswer_eq_free (s := linkR7 s) h)
    · exact trapPuts_congr rfl rfl (takeWriteAnswer_eq_free (s := linkR7 s) h)

/-- Settles O57: nothing is listed in memory or recorded, and the run goes on. -/
theorem resetMeetsTheInvariant : Obligations.ResetMeetsTheInvariant :=
  ⟨reset_mem_wf, rfl, rfl, fun _ => rfl⟩

end Sys2Proof.Machine
end

section
/-! PROOFS. Effective addresses, what an effect does to memory, which steps have an outcome, and the invariant of steps
and runs. -/

namespace Sys2Proof.Machine

/-! ### Effective addresses (R36) -/

/-- Adding a sign-extended field wraps modulo 65536: the field's extension is its signed value modulo 65536. -/
theorem isSum_add_sext {n : Nat} (base : Word) (off : BitVec n) (hn : n ≤ 16) :
    IsSum (base + sext off) base off.toInt := by
  have hmod : ((sext off).toNat : Int) % 65536 = off.toInt % 65536 := by
    rw [← sext_toInt off hn, BitVec.toInt_eq_toNat_bmod]
    exact Int.bmod_emod.symm
  rw [IsSum, BitVec.toNat_add]
  omega

/-! ### Memory (R38, R42, R46) -/

theorem execTrap_mem {v : Byte} {s t : State} (h : execTrap v s = .next t) : t.mem = s.mem := by
  rcases execTrap_next h with
    ⟨-, r, -, ⟨b, rfl⟩ | ⟨e, rfl⟩⟩ | ⟨c, -, r, -, rfl | ⟨e, n, rfl⟩⟩ | ⟨-, rfl⟩ | ⟨-, rfl⟩
  all_goals rfl

theorem storeAddress_of_flagDest {i : Instr} {dr : Reg} (s : State) (h : flagDest i = some dr) :
    storeAddress s i = none := by
  cases i <;> cases h <;> rfl

/-- An effect writes the one Word of a store, or leaves memory as it is. -/
theorem exec_mem {i : Instr} {s t : State} (h : exec i s = .next t) :
    (∃ a r, storeAddress s i = some a ∧ storedReg i = some r ∧ t.mem = s.mem.write a (s.reg r)) ∨
      (storeAddress s i = none ∧ t.mem = s.mem) := by
  rcases exec_next h with ⟨dr, v, hdr, rfl⟩ | ⟨a, r, ha, hr, rfl⟩ | ⟨⟨n, z, p, off9, rfl⟩, v, rfl⟩ | ⟨base, rfl, rfl⟩ |
    ⟨⟨off11, rfl⟩ | ⟨base, rfl⟩, v, rfl⟩ | ⟨rfl, rfl⟩ | ⟨v, rfl, htrap⟩ | ⟨low, rfl, rfl⟩
  · exact .inr ⟨storeAddress_of_flagDest s hdr, rfl⟩
  · exact .inl ⟨a, r, ha, hr, rfl⟩
  · exact .inr ⟨rfl, rfl⟩
  · exact .inr ⟨rfl, rfl⟩
  · exact .inr ⟨rfl, rfl⟩
  · exact .inr ⟨rfl, rfl⟩
  · exact .inr ⟨rfl, rfl⟩
  · exact .inr ⟨rfl, execTrap_mem htrap⟩
  · exact .inr ⟨rfl, rfl⟩

/-- Every effect keeps memory's canonical form. -/
theorem exec_wf {i : Instr} {s t : State} (h : exec i s = .next t) (hs : s.mem.wf = true) : t.mem.wf = true := by
  obtain ⟨a, r, -, -, hmem⟩ | ⟨-, hmem⟩ := exec_mem h
  · rw [hmem]
    exact Memory.wf_write _ _ _ hs
  · rwa [hmem]

/-! ### The I/O record (R120) -/

theorem logIo_legal {s : State} {e : IoEvent} (hs : s.ioLog.all IoEvent.legal = true) (he : e.legal = true) :
    (s.logIo e).ioLog.all IoEvent.legal = true := by
  simp [List.all_append, hs, he]

/-- What a failed write call is recorded with is a prefix of what was asked for. -/
theorem writeFailed_take_legal (c : WriteCall) (e : IoError) (n : Nat) :
    (IoEvent.writeFailed c e (c.payload.take n)).legal = true :=
  List.isPrefixOf_iff_prefix.2 (List.take_prefix n c.payload)

/-- Every trap service keeps the I/O record legal, whatever the host answers. -/
theorem execTrap_legal {v : Byte} {s t : State} (h : execTrap v s = .next t)
    (hs : s.ioLog.all IoEvent.legal = true) : t.ioLog.all IoEvent.legal = true := by
  rcases execTrap_next h with
    ⟨-, r, -, ⟨b, rfl⟩ | ⟨e, rfl⟩⟩ | ⟨c, -, r, -, rfl | ⟨e, n, rfl⟩⟩ | ⟨-, rfl⟩ | ⟨-, rfl⟩
  · exact logIo_legal (s := s) hs rfl
  · exact logIo_legal (s := s) hs rfl
  · exact logIo_legal (s := s) hs rfl
  · exact logIo_legal (s := s) hs (writeFailed_take_legal c e n)
  · exact hs
  · exact hs

/-- Every effect keeps the I/O record legal: TRAP alone adds to it. -/
theorem exec_legal {i : Instr} {s t : State} (h : exec i s = .next t) (hs : s.ioLog.all IoEvent.legal = true) :
    t.ioLog.all IoEvent.legal = true := by
  obtain ⟨hlog, -⟩ | ⟨v, e, rfl, -⟩ := exec_recordsIo h
  · rwa [hlog]
  · exact execTrap_legal h hs

/-! ### The state of an ended run (R115, R123 to R125) -/

theorem endPrecise_of_running {s : State} (h : s.status = .running) : s.endPrecise = true := by
  rw [State.endPrecise, h]

/-- TRAP runs on, halts, or fails with the capability's error or with its unrecognised vector. -/
theorem execTrap_status {v : Byte} {s t : State} (h : execTrap v s = .next t) :
    t.status = s.status ∨ t.status = .halted ∨ (∃ e, t.status = .failed (.io e)) ∨
      (v ∉ recognisedVectors ∧ t.status = .failed (.unsupported (.trapVector v))) := by
  rcases execTrap_next h with
    ⟨-, r, -, ⟨b, rfl⟩ | ⟨e, rfl⟩⟩ | ⟨c, -, r, -, rfl | ⟨e, n, rfl⟩⟩ | ⟨-, rfl⟩ | ⟨hv, rfl⟩
  · exact .inl rfl
  · exact .inr (.inr (.inl ⟨e, rfl⟩))
  · exact .inl rfl
  · exact .inr (.inr (.inl ⟨e, rfl⟩))
  · exact .inr (.inl rfl)
  · exact .inr (.inr (.inr ⟨hv, rfl⟩))

/-- However TRAP ends a run, R7 and PC hold the return address. -/
theorem execTrap_endPrecise {v : Byte} {s t : State} (h : execTrap v s = .next t) (hs : s.status = .running) :
    t.endPrecise = true := by
  obtain ⟨h7, -, hpc, -⟩ := execTrap_frame h
  have hlink : t.reg .r7 = t.pc := h7.trans hpc.symm
  obtain hst | hst | ⟨e, hst⟩ | ⟨hv, hst⟩ := execTrap_status h
  · exact endPrecise_of_running (hst.trans hs)
  · simp [State.endPrecise, hst, hlink]
  · simp [State.endPrecise, hst, hlink]
  · simp [State.endPrecise, hst, hlink, hv]

/-- An effect that ends a running run leaves the state that its rule gives; the decoder never gives the reserved row. -/
theorem exec_endPrecise {i : Instr} {s t : State} (hi : i.WellFormed) (h : exec i s = .next t)
    (hs : s.status = .running) : t.endPrecise = true := by
  rcases exec_next h with ⟨dr, v, -, rfl⟩ | ⟨a, r, -, -, rfl⟩ | ⟨-, v, rfl⟩ | ⟨base, -, rfl⟩ | ⟨-, v, rfl⟩ |
    ⟨-, rfl⟩ | ⟨v, -, htrap⟩ | ⟨low, rfl, -⟩
  · exact endPrecise_of_running hs
  · exact endPrecise_of_running hs
  · exact endPrecise_of_running hs
  · exact endPrecise_of_running hs
  · exact endPrecise_of_running hs
  · rfl
  · exact execTrap_endPrecise htrap hs
  · exact absurd hi nofun

/-- A decode fault leaves PC at the Word it names, and that Word in memory (R80, R123). -/
theorem decodeFault_endPrecise {s : State} {e : DecodeError} (h : decode s.params.strictFields s.fetch = .error e) :
    (s.setStatus (.failed (.decode s.fetch s.pc))).endPrecise = true := by
  unfold State.fetch at h ⊢
  simp [State.endPrecise, h]

/-! ### Steps that have an outcome (R78, R126) -/

/-- Where a step is defined, it is not refused: no effect is. -/
theorem step_ne_refused {s : State} (h : s.MayStep) (r : Refusal) : step s ≠ .refused r := by
  obtain ⟨hstage, hrun⟩ := h
  rw [step_of_mayStep hstage hrun, cycle]
  split
  · exact nofun
  · exact exec_ne_refused _ _ r

/-! ### The obligations -/

/-- Settles O7: each effective address is its base plus a sign-extended field. -/
theorem effectiveAddressesWrap : Obligations.EffectiveAddressesWrap := by
  intro s off9 off11 base off6
  exact ⟨isSum_add_sext s.pc off9 (by decide), isSum_add_sext s.pc off11 (by decide),
    isSum_add_sext (s.reg base) off6 (by decide)⟩

/-- Settles O48, from what an effect does to memory and the law of read after write. -/
theorem onlyStoresChangeMemory : Obligations.OnlyStoresChangeMemory := by
  intro i s t h
  obtain ⟨a, r, ha, hr, hmem⟩ | ⟨hnone, hmem⟩ := exec_mem h
  · refine ⟨fun b q hb hq => ?_, fun hnone => absurd (ha.symm.trans hnone) nofun⟩
    cases ha.symm.trans hb
    cases hr.symm.trans hq
    have hread : ∀ c, t.mem.read c = if c = a then s.reg r else s.mem.read c := fun c => by
      rw [hmem, Memory.read_write]
    exact ⟨(hread a).trans (if_pos rfl), fun c hc => (hread c).trans (if_neg hc)⟩
  · exact ⟨fun b q hb => absurd (hnone.symm.trans hb) nofun, fun _ => hmem⟩

/-- Settles O54: a step that may be made is not refused, and one without an outcome is a GETC or a PUTS. -/
theorem onlyPutsAndGetcCanBeStuck : Obligations.OnlyPutsAndGetcCanBeStuck := by
  intro s hmay hgetc hputs
  cases h : step s with
  | next t => exact ⟨t, rfl⟩
  | fault f =>
    obtain ⟨-, i, hi, hexec⟩ := step_fault h
    obtain ⟨rfl, -⟩ | ⟨rfl, -⟩ := exec_fault hexec
    · exact absurd hi hgetc
    · exact absurd hi hputs
  | refused r => exact absurd h (step_ne_refused hmay r)

/-- Settles O55: a decode fault changes the run status only, and an effect keeps each part of the invariant; either way
the run has begun. -/
theorem stepKeepsTheInvariant : Obligations.StepKeepsTheInvariant := by
  rintro s t ⟨hmem, hlog, -, -⟩ h
  obtain ⟨-, hstage⟩ := stepsKeepTheParameters s t h
  obtain ⟨-, hrun, ⟨e, he, rfl⟩ | ⟨i, hi, hexec⟩⟩ := step_next h
  · exact ⟨hmem, hlog, decodeFault_endPrecise (s := s.setStage .started) he, fun hn => absurd hstage hn⟩
  · exact ⟨exec_wf hexec hmem, exec_legal hexec hlog, exec_endPrecise (decode_wellFormed hi) hexec hrun,
      fun hn => absurd hstage hn⟩

/-- Settles O56: the driver's induction over O55. -/
theorem runsKeepTheInvariant : Obligations.RunsKeepTheInvariant :=
  drive_keeps State.Inv stepKeepsTheInvariant

end Sys2Proof.Machine
end

section
/-! PROOFS. The encoding: the formats' fields, the masks of R70, and the one row of the decoder that each Word takes. -/

namespace Sys2Proof

open Sys2Proof.Machine

/-! ### Fields of a Word -/

/-- Two adjacent fields of a Word are one field. -/
theorem append_eq_field_iff {w : Word} {lo a b : Nat} {u : BitVec a} {v : BitVec b} :
    u ++ v = w.extractLsb' lo (a + b) ↔ u = w.extractLsb' (lo + b) a ∧ v = w.extractLsb' lo b := by
  rw [← BitVec.extractLsb'_append_extractLsb'_eq_extractLsb' rfl]
  constructor
  · intro h
    have hu := congrArg (BitVec.extractLsb' b a) h
    have hv := congrArg (BitVec.extractLsb' 0 b) h
    rw [BitVec.extractLsb'_append_eq_left, BitVec.extractLsb'_append_eq_left] at hu
    rw [BitVec.extractLsb'_append_eq_right, BitVec.extractLsb'_append_eq_right] at hv
    exact ⟨hu, hv⟩
  · rintro ⟨rfl, rfl⟩
    rfl

theorem eq_iff_eq_field {u w : Word} : u = w ↔ u = w.extractLsb' 0 16 := by rw [field_whole]

theorem eq_field_comm {w : Word} {lo n : Nat} {f : BitVec n} : f = w.extractLsb' lo n ↔ w.extractLsb' lo n = f :=
  eq_comm

theorem ofBool_eq_field_iff {w : Word} {lo : Nat} {b : Bool} :
    BitVec.ofBool b = w.extractLsb' lo 1 ↔ w.getLsbD lo = b := by
  simp [BitVec.eq_of_getLsbD_eq_iff, eq_comm]

theorem field_eq_zero_iff {w : Word} {lo : Nat} : w.extractLsb' lo 1 = 0#1 ↔ w.getLsbD lo = false :=
  eq_comm.trans (ofBool_eq_field_iff (b := false))

theorem bits_eq_field_iff {w : Word} {lo : Nat} {r : Reg} : r.bits = w.extractLsb' lo 3 ↔ regAt w lo = r := by
  rw [regAt]
  exact ⟨fun h => h ▸ Reg.ofBits_bits r, fun h => h ▸ Reg.bits_ofBits _⟩

/-! ### The formats (R56 to R67): a Word has a format exactly if its fields are as the format says -/

section
variable {w : Word} {op : BitVec 4}

/-- OPR (R56). -/
theorem format_opr {a b c : Reg} :
    op ++ a.bits ++ b.bits ++ 0b000#3 ++ c.bits = w ↔
      opcodeOf w = op ∧ regAt w 9 = a ∧ regAt w 6 = b ∧ w.getLsbD 5 = false ∧ w.extractLsb' 3 2 = 0b00#2 ∧
        regAt w 0 = c := by
  rw [show 0b000#3 = BitVec.ofBool false ++ 0b00#2 from rfl, eq_iff_eq_field]
  repeat rw [append_eq_field_iff]
  simp only [bits_eq_field_iff, ofBool_eq_field_iff, eq_field_comm (n := 4), eq_field_comm (n := 2), and_assoc]
  rfl

/-- OPI (R57). -/
theorem format_opi {a b : Reg} {imm5 : BitVec 5} :
    op ++ a.bits ++ b.bits ++ 0b1#1 ++ imm5 = w ↔
      opcodeOf w = op ∧ regAt w 9 = a ∧ regAt w 6 = b ∧ w.getLsbD 5 = true ∧ w.extractLsb' 0 5 = imm5 := by
  rw [show 0b1#1 = BitVec.ofBool true from rfl, eq_iff_eq_field]
  repeat rw [append_eq_field_iff]
  simp only [bits_eq_field_iff, ofBool_eq_field_iff, eq_field_comm (n := 4), eq_field_comm (n := 5), and_assoc]
  rfl

/-- PCR (R63). -/
theorem format_pcr {r : Reg} {off9 : BitVec 9} :
    op ++ r.bits ++ off9 = w ↔ opcodeOf w = op ∧ regAt w 9 = r ∧ w.extractLsb' 0 9 = off9 := by
  rw [eq_iff_eq_field]
  repeat rw [append_eq_field_iff]
  simp only [bits_eq_field_iff, eq_field_comm (n := 4), eq_field_comm (n := 9), and_assoc]
  rfl

/-- BOF (R64), and NOT with its six fixed bits (R58). -/
theorem format_bof {a b : Reg} {low6 : BitVec 6} :
    op ++ a.bits ++ b.bits ++ low6 = w ↔
      opcodeOf w = op ∧ regAt w 9 = a ∧ regAt w 6 = b ∧ w.extractLsb' 0 6 = low6 := by
  rw [eq_iff_eq_field]
  repeat rw [append_eq_field_iff]
  simp only [bits_eq_field_iff, eq_field_comm (n := 4), eq_field_comm (n := 6), and_assoc]
  rfl

/-- BR (R59). -/
theorem format_br {n z p : Bool} {off9 : BitVec 9} :
    op ++ BitVec.ofBool n ++ BitVec.ofBool z ++ BitVec.ofBool p ++ off9 = w ↔
      opcodeOf w = op ∧ w.getLsbD 11 = n ∧ w.getLsbD 10 = z ∧ w.getLsbD 9 = p ∧ w.extractLsb' 0 9 = off9 := by
  rw [eq_iff_eq_field]
  repeat rw [append_eq_field_iff]
  simp only [ofBool_eq_field_iff, eq_field_comm (n := 4), eq_field_comm (n := 9), and_assoc]
  rfl

/-- JMP (R60). -/
theorem format_jmp {base : Reg} :
    op ++ 0b000#3 ++ base.bits ++ 0b000000#6 = w ↔
      opcodeOf w = op ∧ w.extractLsb' 9 3 = 0b000#3 ∧ regAt w 6 = base ∧ w.extractLsb' 0 6 = 0b000000#6 := by
  rw [eq_iff_eq_field]
  repeat rw [append_eq_field_iff]
  simp only [bits_eq_field_iff, eq_field_comm (n := 4), eq_field_comm (f := 0b000#3), eq_field_comm (n := 6), and_assoc]
  rfl

/-- JSR (R61). -/
theorem format_jsr {off11 : BitVec 11} :
    op ++ 0b1#1 ++ off11 = w ↔ opcodeOf w = op ∧ w.getLsbD 11 = true ∧ w.extractLsb' 0 11 = off11 := by
  rw [show 0b1#1 = BitVec.ofBool true from rfl, eq_iff_eq_field]
  repeat rw [append_eq_field_iff]
  simp only [ofBool_eq_field_iff, eq_field_comm (n := 4), eq_field_comm (n := 11), and_assoc]
  rfl

/-- JSRR (R62). -/
theorem format_jsrr {base : Reg} :
    op ++ 0b0#1 ++ 0b00#2 ++ base.bits ++ 0b000000#6 = w ↔
      opcodeOf w = op ∧ w.getLsbD 11 = false ∧ w.extractLsb' 9 2 = 0b00#2 ∧ regAt w 6 = base ∧
        w.extractLsb' 0 6 = 0b000000#6 := by
  rw [show 0b0#1 = BitVec.ofBool false from rfl, eq_iff_eq_field]
  repeat rw [append_eq_field_iff]
  simp only [bits_eq_field_iff, ofBool_eq_field_iff, eq_field_comm (n := 4), eq_field_comm (n := 2),
    eq_field_comm (n := 6), and_assoc]
  rfl

/-- TRAP (R65). -/
theorem format_trap {v : Byte} :
    op ++ 0b0000#4 ++ v = w ↔ opcodeOf w = op ∧ w.extractLsb' 8 4 = 0b0000#4 ∧ w.extractLsb' 0 8 = v := by
  rw [eq_iff_eq_field]
  repeat rw [append_eq_field_iff]
  simp only [eq_field_comm, and_assoc]
  rfl

/-- RTI (R66) and the reserved opcode (R67). -/
theorem format_low12 {low : BitVec 12} : op ++ low = w ↔ opcodeOf w = op ∧ w.extractLsb' 0 12 = low := by
  rw [eq_iff_eq_field, append_eq_field_iff]
  simp only [eq_field_comm]
  rfl

end

/-! ### Decoding an encoding -/

@[simp] theorem checkFixed_true (strict : Bool) (w : Word) (i : Instr) : checkFixed strict true w i = .ok i := by
  cases strict <;> rfl

/-- Each instruction's format gives the fields that its row of the decoder looks at, the fixed ones included. -/
theorem decode_encode (strict : Bool) {i : Instr} (hi : i.WellFormed) : decode strict (encode i) = .ok i := by
  generalize hw : encode i = w
  cases i with
  | addReg dr sr1 sr2 | andReg dr sr1 sr2 =>
    obtain ⟨hop, h9, h6, h5, h3, h0⟩ := format_opr.1 hw
    simp [decode, hop, h9, h6, h5, h3, h0, -BitVec.getLsbD_eq_getElem]
  | addImm dr sr1 imm5 | andImm dr sr1 imm5 =>
    obtain ⟨hop, h9, h6, h5, h0⟩ := format_opi.1 hw
    simp [decode, hop, h9, h6, h5, h0]
  | not dr sr | ldr dr base off6 | str sr base off6 =>
    obtain ⟨hop, h9, h6, h0⟩ := format_bof.1 hw
    simp [decode, hop, h9, h6, h0]
  | ld dr off9 | ldi dr off9 | lea dr off9 | st sr off9 | sti sr off9 =>
    obtain ⟨hop, h9, h0⟩ := format_pcr.1 hw
    simp [decode, hop, h9, h0]
  | br n z p off9 =>
    obtain ⟨hop, hn, hz, hp, h0⟩ := format_br.1 hw
    simp [decode, hop, hn, hz, hp, h0, -BitVec.getLsbD_eq_getElem]
  | jmp base =>
    obtain ⟨hop, h9, h6, h0⟩ := format_jmp.1 hw
    simp [decode, hop, h9, h6, h0]
  | jsr off11 =>
    obtain ⟨hop, h11, h0⟩ := format_jsr.1 hw
    simp [decode, hop, h11, h0]
  | jsrr base =>
    obtain ⟨hop, h11, h9, h6, h0⟩ := format_jsrr.1 hw
    simp [decode, hop, h11, h9, h6, h0, -BitVec.getLsbD_eq_getElem]
  | rti =>
    obtain ⟨hop, h0⟩ := format_low12.1 hw
    simp [decode, hop, h0]
  | trap v =>
    obtain ⟨hop, h8, h0⟩ := format_trap.1 hw
    simp [decode, hop, h8, h0]
  | reserved1101 low => exact absurd hi nofun

theorem decode_of_opcode_1101 (strict : Bool) {w : Word} (h : opcodeOf w = 0b1101#4) :
    decode strict w = .error (.reservedOpcode w) := by
  simp [decode, h]

/-! ### The masks of R70 -/

/-- A mask that covers the fields `fs`, each given by its lowest bit and its width, tests these fields. -/
theorem and_eq_iff_fields (fs : List (Nat × Nat)) {m c : Word}
    (hm : ∀ k < 16, m.getLsbD k = fs.any fun f => decide (f.1 ≤ k) && decide (k < f.1 + f.2)) (hc : c &&& m = c)
    (w : Word) : w &&& m = c ↔ ∀ f ∈ fs, w.extractLsb' f.1 f.2 = c.extractLsb' f.1 f.2 := by
  constructor
  · rintro rfl ⟨lo, len⟩ hf
    ext k hk
    by_cases hlt : lo + k < 16
    · have hmk : m.getLsbD (lo + k) = true := by
        rw [hm _ hlt, List.any_eq_true]
        exact ⟨_, hf, by simpa using hk⟩
      simp [hmk]
    · simp [BitVec.getLsbD_of_ge _ _ (Nat.le_of_not_lt hlt)]
  · intro h
    refine BitVec.eq_of_getLsbD_eq fun k hk => ?_
    rw [← hc, BitVec.getLsbD_and, BitVec.getLsbD_and]
    cases hmk : m.getLsbD k with
    | false => simp
    | true =>
      rw [hm k hk, List.any_eq_true] at hmk
      obtain ⟨⟨lo, len⟩, hf, hin⟩ := hmk
      obtain ⟨hlo, hhi⟩ : lo ≤ k ∧ k < lo + len := by simpa using hin
      have hbit := congrArg (BitVec.getLsbD · (k - lo)) (h _ hf)
      simpa [show k - lo < len by omega, Nat.add_sub_cancel' hlo] using hbit

theorem opcode_mask {c : Word} (hc : c &&& 0xF000#16 = c) (w : Word) :
    w &&& 0xF000#16 = c ↔ opcodeOf w = c.extractLsb' 12 4 := by
  rw [and_eq_iff_fields [(12, 4)] (by decide) hc, List.forall_mem_singleton]
  rfl

theorem opcode_bit5_mask {c : Word} (hc : c &&& 0xF020#16 = c) (hbit : c.extractLsb' 5 1 = 0#1) (w : Word) :
    w &&& 0xF020#16 = c ↔ opcodeOf w = c.extractLsb' 12 4 ∧ w.getLsbD 5 = false := by
  rw [and_eq_iff_fields [(12, 4), (5, 1)] (by decide) hc, List.forall_mem_cons, List.forall_mem_singleton, hbit,
    field_eq_zero_iff]
  rfl

theorem opcode_bit11_mask {c : Word} (hc : c &&& 0xF800#16 = c) (hbit : c.extractLsb' 11 1 = 0#1) (w : Word) :
    w &&& 0xF800#16 = c ↔ opcodeOf w = c.extractLsb' 12 4 ∧ w.getLsbD 11 = false := by
  rw [and_eq_iff_fields [(12, 4), (11, 1)] (by decide) hc, List.forall_mem_cons, List.forall_mem_singleton, hbit,
    field_eq_zero_iff]
  rfl

/-- R70's masks, as the fields that the decoder checks. -/
theorem wrongFixedFields_eq (w : Word) : wrongFixedFields w =
    ((opcodeOf w == 0b0001#4 && !w.getLsbD 5 && !(w.extractLsb' 3 2 == 0b00#2)) ||
      (opcodeOf w == 0b0101#4 && !w.getLsbD 5 && !(w.extractLsb' 3 2 == 0b00#2)) ||
      (opcodeOf w == 0b1001#4 && !(w.extractLsb' 0 6 == 0b111111#6)) ||
      (opcodeOf w == 0b1100#4 && !(w.extractLsb' 9 3 == 0b000#3 && w.extractLsb' 0 6 == 0b000000#6)) ||
      (opcodeOf w == 0b0100#4 && !w.getLsbD 11 && !(w.extractLsb' 9 2 == 0b00#2 && w.extractLsb' 0 6 == 0b000000#6)) ||
      (opcodeOf w == 0b1111#4 && !(w.extractLsb' 8 4 == 0b0000#4)) ||
      (opcodeOf w == 0b1000#4 && !(w.extractLsb' 0 12 == 0#12))) := by
  rw [Bool.eq_iff_iff]
  simp (disch := decide) [wrongFixedFields, opcode_mask, opcode_bit5_mask, opcode_bit11_mask,
    and_eq_iff_fields [(3, 2)] (m := 0x0018#16) (by decide),
    and_eq_iff_fields [(0, 6)] (m := 0x003F#16) (by decide),
    and_eq_iff_fields [(9, 3), (0, 6)] (m := 0x0E3F#16) (by decide),
    and_eq_iff_fields [(9, 2), (0, 6)] (m := 0x063F#16) (by decide),
    and_eq_iff_fields [(8, 4)] (m := 0x0F00#16) (by decide),
    and_eq_iff_fields [(0, 12)] (m := 0x0FFF#16) (by decide), ← imp_iff_not_or]

/-- The opcode masks of R70, as the fields that the decoder tests. -/
theorem withFixedFields_eq (w : Word) : withFixedFields w =
    if opcodeOf w = 0b0001#4 ∧ w.getLsbD 5 = false then w &&& 0xFFE7#16
    else if opcodeOf w = 0b0101#4 ∧ w.getLsbD 5 = false then w &&& 0xFFE7#16
    else if opcodeOf w = 0b1001#4 then w ||| 0x003F#16
    else if opcodeOf w = 0b1100#4 then w &&& 0xF1C0#16
    else if opcodeOf w = 0b0100#4 ∧ w.getLsbD 11 = false then w &&& 0xF9C0#16
    else if opcodeOf w = 0b1111#4 then w &&& 0xF0FF#16
    else if opcodeOf w = 0b1000#4 then 0x8000#16
    else w := by
  simp (disch := decide) [withFixedFields, opcode_mask, opcode_bit5_mask, opcode_bit11_mask]

theorem and_not_eq_self {w m : Word} (h : w &&& m = 0#16) : w &&& ~~~m = w := by
  have hsplit : w &&& (m ||| ~~~m) = w := by rw [BitVec.or_not_self, BitVec.and_allOnes]
  rwa [BitVec.and_or_distrib_left, h, BitVec.zero_or] at hsplit

theorem or_eq_self {w m : Word} (h : w &&& m = m) : w ||| m = w := by
  rw [← h]
  ext k hk
  rw [BitVec.getElem_or, BitVec.getElem_and, Bool.or_and_distrib_left, Bool.or_self]
  cases w[k] <;> rfl

/-- Putting right fixed fields that are right changes nothing. -/
theorem withFixedFields_eq_self {w : Word} (h : wrongFixedFields w = false) : withFixedFields w = w := by
  simp only [wrongFixedFields, Bool.or_eq_false_iff, Bool.and_eq_false_imp, beq_iff_eq, bne_eq_false_iff_eq] at h
  obtain ⟨⟨⟨⟨⟨⟨hadd, hand⟩, hnot⟩, hjmp⟩, hjsrr⟩, htrap⟩, hrti⟩ := h
  unfold withFixedFields
  split_ifs with h1 h5 h9 hC h4 hF h8
  · exact and_not_eq_self (m := 0x0018#16) (hadd h1)
  · exact and_not_eq_self (m := 0x0018#16) (hand h5)
  · exact or_eq_self (hnot h9)
  · exact and_not_eq_self (hjmp hC)
  · exact and_not_eq_self (hjsrr h4)
  · exact and_not_eq_self (htrap hF)
  · exact h8.symm.trans (and_not_eq_self (hrti h8))
  · rfl

section
variable {w m : Word} {lo len : Nat}

theorem field_and_of_ones (h : m.extractLsb' lo len = BitVec.allOnes len) :
    (w &&& m).extractLsb' lo len = w.extractLsb' lo len := by
  rw [BitVec.extractLsb'_and, h, BitVec.and_allOnes]

theorem field_and_of_zero (h : m.extractLsb' lo len = 0#len) : (w &&& m).extractLsb' lo len = 0#len := by
  rw [BitVec.extractLsb'_and, h, BitVec.and_zero]

theorem field_or_of_zero (h : m.extractLsb' lo len = 0#len) :
    (w ||| m).extractLsb' lo len = w.extractLsb' lo len := by
  rw [BitVec.extractLsb'_or, h, BitVec.or_zero]

theorem field_or_of_ones (h : m.extractLsb' lo len = BitVec.allOnes len) :
    (w ||| m).extractLsb' lo len = BitVec.allOnes len := by
  rw [BitVec.extractLsb'_or, h, BitVec.or_allOnes]

theorem regAt_and_of_ones (h : m.extractLsb' lo 3 = BitVec.allOnes 3) : regAt (w &&& m) lo = regAt w lo :=
  congrArg Reg.ofBits (field_and_of_ones h)

theorem regAt_or_of_zero (h : m.extractLsb' lo 3 = 0#3) : regAt (w ||| m) lo = regAt w lo :=
  congrArg Reg.ofBits (field_or_of_zero h)

end

/-! ### The rows of the decoder (R71) -/

/-- `i` stands in the row of the decoder that the Word `w` takes: the row looks at the fixed fields that R70's masks
name, and `i` is encoded as `w` with these put right. -/
structure DecodesBy (w : Word) (i : Instr) : Prop where
  decode_eq : ∀ strict, decode strict w = checkFixed strict (!wrongFixedFields w) w i
  encode_eq : encode i = withFixedFields w

section
variable {w : Word}

/-- A row that checks no field. -/
theorem decodesBy_of_noFixedFields {i : Instr} (hfixed : wrongFixedFields w = false)
    (hdec : ∀ strict, decode strict w = .ok i) (henc : encode i = w) : DecodesBy w i where
  decode_eq strict := by rw [hdec, hfixed, Bool.not_false, checkFixed_true]
  encode_eq := henc.trans (withFixedFields_eq_self hfixed).symm

/-- A row that checks fixed fields. -/
theorem decodesBy_of_fixedFields {i : Instr} {ok : Bool} {v : Word} (hfixed : wrongFixedFields w = !ok)
    (hdec : ∀ strict, decode strict w = checkFixed strict ok w i) (hright : withFixedFields w = v)
    (henc : encode i = v) : DecodesBy w i where
  decode_eq strict := by rw [hdec, hfixed, Bool.not_not]
  encode_eq := henc.trans hright.symm

theorem decodesBy_br (h : opcodeOf w = 0b0000#4) :
    DecodesBy w (.br (w.getLsbD 11) (w.getLsbD 10) (w.getLsbD 9) (w.extractLsb' 0 9)) :=
  decodesBy_of_noFixedFields (by simp [wrongFixedFields_eq, h]) (by simp [decode, h])
    (format_br.2 ⟨h, rfl, rfl, rfl, rfl⟩)

/-- OPR with its fixed fields put right, for ADD and AND alike. -/
theorem format_opr_and {op : BitVec 4} (h : opcodeOf w = op) (h5 : w.getLsbD 5 = false) :
    op ++ (regAt w 9).bits ++ (regAt w 6).bits ++ 0b000#3 ++ (regAt w 0).bits = w &&& 0xFFE7#16 :=
  format_opr.2 ⟨(field_and_of_ones rfl).trans h, regAt_and_of_ones rfl, regAt_and_of_ones rfl,
    by rw [BitVec.getLsbD_and, h5, Bool.false_and], field_and_of_zero rfl, regAt_and_of_ones rfl⟩

theorem decodesBy_addReg (h : opcodeOf w = 0b0001#4) (h5 : w.getLsbD 5 = false) :
    DecodesBy w (.addReg (regAt w 9) (regAt w 6) (regAt w 0)) :=
  decodesBy_of_fixedFields (ok := w.extractLsb' 3 2 == 0b00#2) (v := w &&& 0xFFE7#16)
    (by simp [wrongFixedFields_eq, h, h5, -BitVec.getLsbD_eq_getElem])
    (by simp [decode, h, h5, -BitVec.getLsbD_eq_getElem])
    (by simp [withFixedFields_eq, h, h5, -BitVec.getLsbD_eq_getElem]) (format_opr_and h h5)

theorem decodesBy_addImm (h : opcodeOf w = 0b0001#4) (h5 : w.getLsbD 5 = true) :
    DecodesBy w (.addImm (regAt w 9) (regAt w 6) (w.extractLsb' 0 5)) :=
  decodesBy_of_noFixedFields (by simp [wrongFixedFields_eq, h, h5]) (by simp [decode, h, h5])
    (format_opi.2 ⟨h, rfl, rfl, h5, rfl⟩)

theorem decodesBy_ld (h : opcodeOf w = 0b0010#4) : DecodesBy w (.ld (regAt w 9) (w.extractLsb' 0 9)) :=
  decodesBy_of_noFixedFields (by simp [wrongFixedFields_eq, h]) (by simp [decode, h]) (format_pcr.2 ⟨h, rfl, rfl⟩)

theorem decodesBy_st (h : opcodeOf w = 0b0011#4) : DecodesBy w (.st (regAt w 9) (w.extractLsb' 0 9)) :=
  decodesBy_of_noFixedFields (by simp [wrongFixedFields_eq, h]) (by simp [decode, h]) (format_pcr.2 ⟨h, rfl, rfl⟩)

theorem decodesBy_jsr (h : opcodeOf w = 0b0100#4) (h11 : w.getLsbD 11 = true) :
    DecodesBy w (.jsr (w.extractLsb' 0 11)) :=
  decodesBy_of_noFixedFields (by simp [wrongFixedFields_eq, h, h11]) (by simp [decode, h, h11])
    (format_jsr.2 ⟨h, h11, rfl⟩)

theorem decodesBy_jsrr (h : opcodeOf w = 0b0100#4) (h11 : w.getLsbD 11 = false) : DecodesBy w (.jsrr (regAt w 6)) :=
  decodesBy_of_fixedFields (ok := w.extractLsb' 9 2 == 0b00#2 && w.extractLsb' 0 6 == 0b000000#6)
    (v := w &&& 0xF9C0#16) (by simp [wrongFixedFields_eq, h, h11, -BitVec.getLsbD_eq_getElem])
    (by simp [decode, h, h11, -BitVec.getLsbD_eq_getElem])
    (by simp [withFixedFields_eq, h, h11, -BitVec.getLsbD_eq_getElem])
    (format_jsrr.2 ⟨(field_and_of_ones rfl).trans h, by rw [BitVec.getLsbD_and, h11, Bool.false_and],
      field_and_of_zero rfl, regAt_and_of_ones rfl, field_and_of_zero rfl⟩)

theorem decodesBy_andReg (h : opcodeOf w = 0b0101#4) (h5 : w.getLsbD 5 = false) :
    DecodesBy w (.andReg (regAt w 9) (regAt w 6) (regAt w 0)) :=
  decodesBy_of_fixedFields (ok := w.extractLsb' 3 2 == 0b00#2) (v := w &&& 0xFFE7#16)
    (by simp [wrongFixedFields_eq, h, h5, -BitVec.getLsbD_eq_getElem])
    (by simp [decode, h, h5, -BitVec.getLsbD_eq_getElem])
    (by simp [withFixedFields_eq, h, h5, -BitVec.getLsbD_eq_getElem]) (format_opr_and h h5)

theorem decodesBy_andImm (h : opcodeOf w = 0b0101#4) (h5 : w.getLsbD 5 = true) :
    DecodesBy w (.andImm (regAt w 9) (regAt w 6) (w.extractLsb' 0 5)) :=
  decodesBy_of_noFixedFields (by simp [wrongFixedFields_eq, h, h5]) (by simp [decode, h, h5])
    (format_opi.2 ⟨h, rfl, rfl, h5, rfl⟩)

theorem decodesBy_ldr (h : opcodeOf w = 0b0110#4) : DecodesBy w (.ldr (regAt w 9) (regAt w 6) (w.extractLsb' 0 6)) :=
  decodesBy_of_noFixedFields (by simp [wrongFixedFields_eq, h]) (by simp [decode, h]) (format_bof.2 ⟨h, rfl, rfl, rfl⟩)

theorem decodesBy_str (h : opcodeOf w = 0b0111#4) : DecodesBy w (.str (regAt w 9) (regAt w 6) (w.extractLsb' 0 6)) :=
  decodesBy_of_noFixedFields (by simp [wrongFixedFields_eq, h]) (by simp [decode, h]) (format_bof.2 ⟨h, rfl, rfl, rfl⟩)

theorem decodesBy_rti (h : opcodeOf w = 0b1000#4) : DecodesBy w .rti :=
  decodesBy_of_fixedFields (ok := w.extractLsb' 0 12 == 0#12) (v := 0x8000#16) (by simp [wrongFixedFields_eq, h])
    (by simp [decode, h]) (by simp [withFixedFields_eq, h]) rfl

theorem decodesBy_not (h : opcodeOf w = 0b1001#4) : DecodesBy w (.not (regAt w 9) (regAt w 6)) :=
  decodesBy_of_fixedFields (ok := w.extractLsb' 0 6 == 0b111111#6) (v := w ||| 0x003F#16)
    (by simp [wrongFixedFields_eq, h]) (by simp [decode, h]) (by simp [withFixedFields_eq, h])
    (format_bof.2 ⟨(field_or_of_zero rfl).trans h, regAt_or_of_zero rfl, regAt_or_of_zero rfl, field_or_of_ones rfl⟩)

theorem decodesBy_ldi (h : opcodeOf w = 0b1010#4) : DecodesBy w (.ldi (regAt w 9) (w.extractLsb' 0 9)) :=
  decodesBy_of_noFixedFields (by simp [wrongFixedFields_eq, h]) (by simp [decode, h]) (format_pcr.2 ⟨h, rfl, rfl⟩)

theorem decodesBy_sti (h : opcodeOf w = 0b1011#4) : DecodesBy w (.sti (regAt w 9) (w.extractLsb' 0 9)) :=
  decodesBy_of_noFixedFields (by simp [wrongFixedFields_eq, h]) (by simp [decode, h]) (format_pcr.2 ⟨h, rfl, rfl⟩)

theorem decodesBy_jmp (h : opcodeOf w = 0b1100#4) : DecodesBy w (.jmp (regAt w 6)) :=
  decodesBy_of_fixedFields (ok := w.extractLsb' 9 3 == 0b000#3 && w.extractLsb' 0 6 == 0b000000#6)
    (v := w &&& 0xF1C0#16) (by simp [wrongFixedFields_eq, h]) (by simp [decode, h]) (by simp [withFixedFields_eq, h])
    (format_jmp.2 ⟨(field_and_of_ones rfl).trans h, field_and_of_zero rfl, regAt_and_of_ones rfl,
      field_and_of_zero rfl⟩)

theorem decodesBy_lea (h : opcodeOf w = 0b1110#4) : DecodesBy w (.lea (regAt w 9) (w.extractLsb' 0 9)) :=
  decodesBy_of_noFixedFields (by simp [wrongFixedFields_eq, h]) (by simp [decode, h]) (format_pcr.2 ⟨h, rfl, rfl⟩)

theorem decodesBy_trap (h : opcodeOf w = 0b1111#4) : DecodesBy w (.trap (w.extractLsb' 0 8)) :=
  decodesBy_of_fixedFields (ok := w.extractLsb' 8 4 == 0b0000#4) (v := w &&& 0xF0FF#16)
    (by simp [wrongFixedFields_eq, h]) (by simp [decode, h]) (by simp [withFixedFields_eq, h])
    (format_trap.2 ⟨(field_and_of_ones rfl).trans h, field_and_of_zero rfl, field_and_of_ones rfl⟩)

end

/-- Every Word of a known opcode takes a row of the decoder (R55, R71). -/
theorem exists_decodesBy {w : Word} (hknown : opcodeOf w ≠ 0b1101#4) : ∃ i, DecodesBy w i := by
  obtain ⟨k, hk⟩ : ∃ k, opcodeOf w = BitVec.ofFin k := ⟨_, rfl⟩
  fin_cases k
  · exact ⟨_, decodesBy_br hk⟩
  · cases h5 : w.getLsbD 5 with
    | false => exact ⟨_, decodesBy_addReg hk h5⟩
    | true => exact ⟨_, decodesBy_addImm hk h5⟩
  · exact ⟨_, decodesBy_ld hk⟩
  · exact ⟨_, decodesBy_st hk⟩
  · cases h11 : w.getLsbD 11 with
    | false => exact ⟨_, decodesBy_jsrr hk h11⟩
    | true => exact ⟨_, decodesBy_jsr hk h11⟩
  · cases h5 : w.getLsbD 5 with
    | false => exact ⟨_, decodesBy_andReg hk h5⟩
    | true => exact ⟨_, decodesBy_andImm hk h5⟩
  · exact ⟨_, decodesBy_ldr hk⟩
  · exact ⟨_, decodesBy_str hk⟩
  · exact ⟨_, decodesBy_rti hk⟩
  · exact ⟨_, decodesBy_not hk⟩
  · exact ⟨_, decodesBy_ldi hk⟩
  · exact ⟨_, decodesBy_sti hk⟩
  · exact ⟨_, decodesBy_jmp hk⟩
  · exact absurd hk hknown
  · exact ⟨_, decodesBy_lea hk⟩
  · exact ⟨_, decodesBy_trap hk⟩

/-- A Word of opcode 1101 is an error; any other one has a row, whose instruction it decodes to, unless STRICT_FIELDS
holds and the fixed fields are wrong. -/
theorem decode_cases (w : Word) :
    (w &&& 0xF000#16 = 0xD000#16 ∧ ∀ strict, decode strict w = .error (.reservedOpcode w)) ∨
      w &&& 0xF000#16 ≠ 0xD000#16 ∧ ∃ i, encode i = withFixedFields w ∧ decode false w = .ok i ∧
        decode true w = if wrongFixedFields w = true then .error (.fixedFields w) else .ok i := by
  rw [Ne, opcode_mask rfl]
  by_cases hop : opcodeOf w = 0b1101#4
  · exact .inl ⟨hop, fun strict => decode_of_opcode_1101 strict hop⟩
  · obtain ⟨i, hdec, henc⟩ := exists_decodesBy hop
    refine .inr ⟨hop, i, henc, hdec false, (hdec true).trans ?_⟩
    rw [checkFixed, Bool.true_and, Bool.not_not]

/-! ### The obligations -/

/-- Settles O2: a format gives back the fields it is made of; and a Word that decodes with STRICT_FIELDS is the encoding
of what it decodes to with its fixed fields put right, which are right already. -/
theorem decodeAndEncodeAgree : Obligations.DecodeAndEncodeAgree := by
  refine ⟨fun strict i hi => decode_encode strict hi, fun w i h => ?_⟩
  obtain ⟨-, herr⟩ | ⟨-, j, henc, -, hstrict⟩ := decode_cases w
  · exact absurd ((herr true).symm.trans h) nofun
  · rw [h] at hstrict
    split at hstrict
    · exact absurd hstrict nofun
    · next hright =>
      cases hstrict
      exact henc.trans (withFixedFields_eq_self (Bool.eq_false_of_not_eq_true hright))

/-- Settles O3: the errors are those of `decode_cases`; and the Word with its fixed fields put right is the encoding of
what the decoder gives without STRICT_FIELDS, so that O2 decodes it. -/
theorem decodeErrorsExactly : Obligations.DecodeErrorsExactly := by
  refine ⟨fun w => ?_, fun w => ?_, fun w hop => ?_⟩
  · obtain ⟨hop, herr⟩ | ⟨hop, i, -, -, hstrict⟩ := decode_cases w
    · exact iff_of_true ⟨_, herr true⟩ (.inl hop)
    · rw [hstrict]
      split
      · next hwrong => exact iff_of_true ⟨_, rfl⟩ (.inr hwrong)
      · next hright => exact iff_of_false nofun (not_or.2 ⟨hop, hright⟩)
  · obtain ⟨hop, herr⟩ | ⟨hop, i, -, hdec, -⟩ := decode_cases w
    · exact iff_of_true ⟨_, herr false⟩ hop
    · rw [hdec]
      exact iff_of_false nofun hop
  · obtain ⟨hres, -⟩ | ⟨-, i, henc, hdec, -⟩ := decode_cases w
    · exact absurd hres hop
    · rw [← henc, hdec, decode_encode true (decode_wellFormed hdec)]

/-- Settles O4: no row of the decoder gives the table's reserved term. -/
theorem decoderGivesWellFormed : Obligations.DecoderGivesWellFormed := fun _ _ _ => decode_wellFormed

/-- Settles O43: the Word is TRAP's encoding, and TRAP's frame is that of every service. -/
theorem everyTrapLinksR7 : Obligations.EveryTrapLinksR7 := fun v =>
  ⟨fun strict => decode_encode strict (i := .trap v) rfl, fun _ _ h => execTrap_frame h⟩

/-- Settles O1: the decoder is evaluated at each Word. -/
theorem writtenOutWordsDecode : Obligations.WrittenOutWordsDecode :=
  ⟨rfl, rfl, rfl, rfl, rfl, rfl, rfl, rfl, rfl⟩

/-- Settles O46: no row of the decoder has opcode 1101, so the step takes the decode fault with PC at the Word, which is
where the term for the table's row puts PC back to. -/
theorem reservedOpcodeIsADecodeFault : Obligations.ReservedOpcodeIsADecodeFault := by
  intro low
  have hdec : ∀ strict, decode strict (0b1101#4 ++ low) = .error (.reservedOpcode (0b1101#4 ++ low)) := fun strict =>
    decode_of_opcode_1101 strict (Laws.EncodedOpcode.reserved1101 low)
  have hterm : ∀ s : State, exec (.reserved1101 low) s =
      .next { s with pc := s.pc - 1#16, status := .failed (.decode (0b1101#4 ++ low) (s.pc - 1#16)) } := fun _ => rfl
  refine ⟨hdec, hterm, fun s hmay hword => ?_⟩
  obtain ⟨hstage, hrun⟩ := hmay
  have hfetch : (s.setStage .started).fetch = 0b1101#4 ++ low := hword
  rw [step_of_mayStep hstage hrun, cycle, hfetch, hdec, hterm, BitVec.add_sub_cancel]
  rfl

end Sys2Proof
end

section
/-! PROOFS. The execution cycle: the host's writes, the step by the Word it fetches, the flags, the halt, and what the
end of a run rests on. -/

namespace Sys2Proof.Machine

/-! ### The Words with no decoding -/

/-- The Words with no decoding, for both values of STRICT_FIELDS (R67, R70). -/
theorem decode_error_iff (strict : Bool) (w : Word) :
    (∃ e, decode strict w = .error e) ↔
      w &&& 0xF000#16 = 0xD000#16 ∨ (strict = true ∧ wrongFixedFields w = true) := by
  obtain ⟨hstrict, hlenient, -⟩ := decodeErrorsExactly
  cases strict with
  | true => simpa using hstrict w
  | false => simpa using hlenient w

/-! ### The host's writes (R92) -/

theorem hostWrite_of_allowed {h : HostWrite} {s : State} (ha : h.allowed s.stage = true) :
    hostWrite h s = .next (h.apply s) := if_pos ha

theorem hostWrite_of_not_allowed {h : HostWrite} {s : State} (ha : h.allowed s.stage = false) :
    hostWrite h s = .refused .hostWriteTooLate := if_neg (Bool.eq_false_iff.1 ha)

theorem hostWrite_next {h : HostWrite} {s t : State} (hw : hostWrite h s = .next t) :
    h.allowed s.stage = true ∧ t = h.apply s := by
  cases ha : h.allowed s.stage with
  | true =>
    cases (hostWrite_of_allowed ha).symm.trans hw
    exact ⟨rfl, rfl⟩
  | false => exact absurd ((hostWrite_of_not_allowed ha).symm.trans hw) nofun

theorem HostWrite.allowed_started (h : HostWrite) : h.allowed .started = false := by cases h <;> rfl

theorem HostWrite.allowed_created (h : HostWrite) : h.allowed .created = true := by cases h <;> rfl

theorem HostWrite.allowed_reg {g : Stage} (hg : g ≠ .started) (r : Reg) (v : Word) :
    (HostWrite.reg r v).allowed g = true := by
  cases g with
  | started => exact absurd rfl hg
  | created | initialised => rfl

theorem HostWrite.allowed_mem {g : Stage} (hg : g ≠ .started) (a v : Word) :
    (HostWrite.mem a v).allowed g = true := by
  cases g with
  | started => exact absurd rfl hg
  | created | initialised => rfl

theorem HostWrite.allowed_pc {g : Stage} (hg : g ≠ .created) (v : Word) : (HostWrite.pc v).allowed g = false := by
  cases g with
  | created => exact absurd rfl hg
  | initialised | started => rfl

theorem HostWrite.allowed_cond {g : Stage} (hg : g ≠ .created) (c : Cond) :
    (HostWrite.cond c).allowed g = false := by
  cases g with
  | created => exact absurd rfl hg
  | initialised | started => rfl

theorem setReg_onlyRegs (s : State) (r : Reg) (v : Word) : OnlyRegs [r] s (s.setReg r v) :=
  ⟨setReg_keepsRegs s r v [], rfl, rfl, fun _ => rfl, rfl, ⟨rfl, rfl, rfl⟩, rfl, rfl⟩

theorem writeMem_onlyWord (s : State) (a v : Word) : OnlyWord a s (s.writeMem a v) :=
  ⟨fun b hb => (State.read_writeMem s a v b).trans (if_neg hb), fun _ _ => rfl, rfl, rfl, rfl, ⟨rfl, rfl, rfl⟩,
    rfl, rfl⟩

/-! ### The launch keeps the invariant -/

/-- While the run goes on, the invariant is that of memory and of the I/O record. -/
theorem inv_of_running {s : State} (hmem : s.mem.wf = true) (hlog : s.ioLog.all IoEvent.legal = true)
    (hrun : s.status = .running) : s.Inv :=
  ⟨hmem, hlog, endPrecise_of_running hrun, fun _ => hrun⟩

theorem initOnce_next {s t : State} (h : initOnce s = .next t) :
    s.stage = .created ∧
      t = (((s.setPc s.params.resetPc).setCond .z).setStatus .running).setStage .initialised := by
  unfold initOnce at h
  split at h
  · next hs =>
    cases h
    exact ⟨hs, rfl⟩
  · exact absurd h nofun
  · exact absurd h nofun

/-- A host write keeps memory's canonical form. -/
theorem HostWrite.apply_wf (h : HostWrite) {s : State} (hs : s.mem.wf = true) : (h.apply s).mem.wf = true := by
  cases h with
  | mem a v => exact Memory.wf_write s.mem a v hs
  | reg r v | pc v | cond c => exact hs

theorem HostWrite.apply_ioLog (h : HostWrite) (s : State) : (h.apply s).ioLog = s.ioLog := by cases h <;> rfl

theorem HostWrite.apply_status (h : HostWrite) (s : State) : (h.apply s).status = s.status := by cases h <;> rfl

/-! ### The step, by the Word it fetches (R78 to R83) -/

theorem State.noStep_of_created {s : State} (h : s.stage = .created) : s.noStep = some .notInitialised := by
  rw [State.noStep, h]

theorem State.noStep_of_ended {s : State} (hstage : s.stage ≠ .created) (hrun : s.status ≠ .running) :
    s.noStep = some .runEnded := by
  unfold State.noStep
  split
  · exact absurd ‹_› hstage
  · exact absurd ‹_› hrun
  · rfl
  · rfl

theorem step_of_noStep {s : State} {r : Refusal} (h : s.noStep = some r) : step s = .refused r := by
  rw [step, h]

theorem cycle_of_decode_ok {s : State} {i : Instr} (h : decode s.params.strictFields s.fetch = .ok i) :
    cycle s = exec i s.advancePc := by
  rw [cycle, h]

theorem cycle_of_decode_error {s : State} {e : DecodeError} (h : decode s.params.strictFields s.fetch = .error e) :
    cycle s = .next (s.setStatus (.failed (.decode s.fetch s.pc))) := by
  rw [cycle, h]
  exact decodeFault_eq s.fetch s

theorem step_of_decode_ok {s : State} {i : Instr} (hmay : s.MayStep)
    (h : decode s.params.strictFields s.fetch = .ok i) : step s = exec i (s.setStage .started).advancePc :=
  (step_of_mayStep hmay.1 hmay.2).trans (cycle_of_decode_ok (s := s.setStage .started) h)

theorem step_of_decode_error {s : State} {e : DecodeError} (hmay : s.MayStep)
    (h : decode s.params.strictFields s.fetch = .error e) :
    step s = .next ((s.setStage .started).setStatus (.failed (.decode s.fetch s.pc))) :=
  (step_of_mayStep hmay.1 hmay.2).trans (cycle_of_decode_error (s := s.setStage .started) h)

/-! ### The condition codes (R85, R86) -/

theorem flagIs_condOf (v : Word) : FlagIs v (condOf v) := by
  rcases condOf_cases v with ⟨hv, hc⟩ | ⟨hlo, hhi, hc⟩ | ⟨hv, hc⟩
  · rw [hc]
    exact ⟨iff_of_true rfl hv, iff_of_false nofun (by omega), iff_of_false nofun (by omega)⟩
  · rw [hc]
    exact ⟨iff_of_false nofun (by omega), iff_of_true rfl ⟨hlo, hhi⟩, iff_of_false nofun (by omega)⟩
  · rw [hc]
    exact ⟨iff_of_false nofun (by omega), iff_of_false nofun (by omega), iff_of_true rfl hv⟩

/-- DR holds the value written, and COND its flag, even when DR was a source. -/
theorem setReg_setcc_flagIs (s : State) (dr : Reg) (v : Word) :
    FlagIs (((s.setReg dr v).setcc v).reg dr) ((s.setReg dr v).setcc v).cond := by
  rw [State.setcc_reg, State.reg_setReg, if_pos rfl]
  exact flagIs_condOf v

/-- An effect writes DR and its flag, or leaves COND alone. -/
theorem exec_flag {i : Instr} {s t : State} (h : exec i s = .next t) :
    (∃ dr, flagDest i = some dr ∧ FlagIs (t.reg dr) t.cond) ∨ (flagDest i = none ∧ t.cond = s.cond) := by
  rcases exec_next h with ⟨dr, v, hdr, rfl⟩ | ⟨a, r, ha, -, rfl⟩ | ⟨⟨n, z, p, off9, rfl⟩, v, rfl⟩ | ⟨base, rfl, rfl⟩ |
    ⟨⟨off11, rfl⟩ | ⟨base, rfl⟩, v, rfl⟩ | ⟨rfl, rfl⟩ | ⟨v, rfl, htrap⟩ | ⟨low, rfl, rfl⟩
  · exact .inl ⟨dr, hdr, setReg_setcc_flagIs s dr v⟩
  · refine .inr ⟨Option.eq_none_iff_forall_not_mem.2 fun dr hdr => ?_, rfl⟩
    exact absurd (ha.symm.trans (storeAddress_of_flagDest s hdr)) nofun
  · exact .inr ⟨rfl, rfl⟩
  · exact .inr ⟨rfl, rfl⟩
  · exact .inr ⟨rfl, rfl⟩
  · exact .inr ⟨rfl, rfl⟩
  · exact .inr ⟨rfl, rfl⟩
  · obtain ⟨-, -, -, hcond, -⟩ := execTrap_frame htrap
    exact .inr ⟨rfl, hcond⟩
  · exact .inr ⟨rfl, rfl⟩

/-! ### The halt (R89, R115) -/

/-- A run that has ended is one that is not Running (R30). -/
theorem State.ended_iff (s : State) : s.Succeeded ∨ s.Failed ↔ s.status ≠ .running := by
  rw [State.Succeeded, State.Failed]
  cases s.status <;> simp

/-- Of the trap services, HALT alone halts. -/
theorem execTrap_halted_iff {v : Byte} {s t : State} (h : execTrap v s = .next t) (hs : s.status = .running) :
    t.status = .halted ↔ v = 0x25#8 := by
  have hgo : (linkR7 s).status ≠ .halted := fun hl => absurd (hs.symm.trans hl) nofun
  rcases execTrap_next h with
    ⟨rfl, r, -, ⟨b, rfl⟩ | ⟨e, rfl⟩⟩ | ⟨c, hv, r, -, ht⟩ | ⟨rfl, rfl⟩ | ⟨hv, rfl⟩
  · exact iff_of_false hgo (by decide)
  · exact iff_of_false nofun (by decide)
  · have hne : v ≠ 0x25#8 := by
      rcases hv with ⟨rfl, -⟩ | ⟨rfl, -⟩ <;> decide
    rcases ht with rfl | ⟨e, n, rfl⟩
    · exact iff_of_false hgo hne
    · exact iff_of_false nofun hne
  · exact iff_of_true rfl rfl
  · refine iff_of_false nofun ?_
    rintro rfl
    exact hv (by decide)

/-- Of the effects, that of the halt trap alone halts a running run. -/
theorem exec_halted_iff {i : Instr} {s t : State} (h : exec i s = .next t) (hs : s.status = .running) :
    t.status = .halted ↔ i = .trap 0x25#8 := by
  have hgo : s.status ≠ .halted := fun hl => absurd (hs.symm.trans hl) nofun
  rcases exec_next h with ⟨dr, v, hdr, rfl⟩ | ⟨a, r, ha, -, rfl⟩ | ⟨⟨n, z, p, off9, rfl⟩, v, rfl⟩ | ⟨base, rfl, rfl⟩ |
    ⟨⟨off11, rfl⟩ | ⟨base, rfl⟩, v, rfl⟩ | ⟨rfl, rfl⟩ | ⟨v, rfl, htrap⟩ | ⟨low, rfl, rfl⟩
  · exact iff_of_false hgo (by rintro rfl; exact absurd hdr nofun)
  · exact iff_of_false hgo (by rintro rfl; exact absurd ha nofun)
  · exact iff_of_false hgo nofun
  · exact iff_of_false hgo nofun
  · exact iff_of_false hgo nofun
  · exact iff_of_false hgo nofun
  · exact iff_of_false nofun nofun
  · rw [execTrap_halted_iff htrap hs, Instr.trap.injEq]
  · exact iff_of_false nofun nofun

/-! ### The driver (R88, R91) -/

theorem drive_succ_of_step {s t : State} (hrun : s.status = .running) (h : step s = .next t) (n : Nat) :
    drive (n + 1) s = drive n t := by
  simp only [drive, hrun, h]

/-- A run that has ended stands still. -/
theorem drive_of_ended {s : State} (h : s.Succeeded ∨ s.Failed) (n : Nat) : drive n s = .next s := by
  cases n with
  | zero => rfl
  | succ n =>
    obtain hs | ⟨e, hs⟩ := h
    · simp only [drive, hs]
    · simp only [drive, hs]

/-- A launched run is never refused a step. -/
theorem drive_ne_refused (r : Refusal) : ∀ {n : Nat} {s : State}, s.stage ≠ .created → drive n s ≠ .refused r
  | 0, _, _ => nofun
  | n + 1, s, hs => by
    by_cases hrun : s.status = .running
    · cases h : step s with
      | next t =>
        obtain ⟨-, ht⟩ := stepsKeepTheParameters s t h
        rw [drive_succ_of_step hrun h]
        exact drive_ne_refused r (ht ▸ nofun)
      | fault f =>
        rw [drive_stuck hrun h]
        exact nofun
      | refused q => exact absurd h (step_ne_refused ⟨hs, hrun⟩ q)
    · rw [drive_of_ended (s.ended_iff.2 hrun)]
      exact nofun

/-- A run that is still Running after `n` steps has not ended within them. -/
theorem not_ended_of_drive_running {m n : Nat} {s t u : State} (hn : drive n s = .next t) (ht : t.status = .running)
    (hmn : m ≤ n) (hm : drive m s = .next u) : ¬ (u.Succeeded ∨ u.Failed) := by
  intro hu
  have hstand : drive n s = .next u := by
    rw [← Nat.add_sub_cancel' hmn, drive_add hm, drive_of_ended hu]
  cases hn.symm.trans hstand
  exact t.ended_iff.1 hu ht

/-! ### What the end of a run rests on (R148) -/

/-- A run whose every read is answered does not wait at one for ever (R121). -/
theorem drive_ne_inputNeverAnswered {s : State} (h : s.EveryReadAnswered) (n : Nat) :
    drive n s ≠ .fault .inputNeverAnswered := by
  intro hd
  obtain ⟨m, t, -, hm, -, hstep⟩ := drive_fault hd
  obtain ⟨hreads, hnever⟩ := (step_inputNeverAnswered t).1 hstep
  obtain ⟨b, hb⟩ | ⟨e, he⟩ := h m t hm hreads
  · exact absurd (hnever.symm.trans hb) nofun
  · exact absurd (hnever.symm.trans he) nofun

/-- A launched run whose every read is answered goes on to a state, or is stuck in PUTS (R116). -/
theorem drive_next_or_putsNeverEnds {s : State} (hs : s.stage ≠ .created) (h : s.EveryReadAnswered) (n : Nat) :
    (∃ t, drive n s = .next t) ∨ drive n s = .fault .putsNeverEnds := by
  cases hd : drive n s with
  | next t => exact .inl ⟨t, rfl⟩
  | fault f =>
    cases f with
    | putsNeverEnds => exact .inr rfl
    | inputNeverAnswered => exact absurd hd (drive_ne_inputNeverAnswered h n)
  | refused r => exact absurd hd (drive_ne_refused r hs)

/-- Behind a read that is never answered, the run has no state, however often the host calls (R121). -/
theorem drive_behind_unanswered_read {m n : Nat} {s t : State} (hn : drive n s = .next t) (hreads : t.ReadsInput)
    (hnever : t.takeReadAnswer.1 = .never) (hmn : n < m) : drive m s = .fault .inputNeverAnswered := by
  obtain ⟨k, rfl⟩ := Nat.exists_eq_add_of_lt hmn
  have hstep : step t = .fault .inputNeverAnswered := (step_inputNeverAnswered t).2 ⟨hreads, hnever⟩
  rw [Nat.add_assoc, drive_add hn]
  exact drive_stuck hreads.1.2 hstep k

/-! ### The obligations -/

/-- Settles O60. With both assumptions the run has a state after every number of calls or is stuck in PUTS, and it ends
if one of these states is not Running. A read never answered leaves no state behind it, and a state still Running no
end before it, which leaves no place for an end. -/
theorem terminationRestsOnTheHost : Obligations.TerminationRestsOnTheHost := by
  refine ⟨?_, ?_, ?_⟩
  · rintro s c hs ⟨hreads, hcalls⟩
    by_cases hputs : ∃ n, drive n s = .fault .putsNeverEnds
    · exact .inr (.inl hputs)
    have hnext : ∀ n, ∃ t, drive n s = .next t := fun n =>
      (drive_next_or_putsNeverEnds hs hreads n).resolve_right fun hn => hputs ⟨n, hn⟩
    by_cases hend : ∃ n t, drive n s = .next t ∧ t.status ≠ .running
    · obtain ⟨n, t, hn, ht⟩ := hend
      exact .inl ⟨t, n, hcalls n, hn, t.ended_iff.2 ht⟩
    · refine .inr (.inr fun n => ?_)
      obtain ⟨t, hn⟩ := hnext n
      exact ⟨t, hn, not_not.1 fun ht => hend ⟨n, t, hn, ht⟩⟩
  · rintro s t n hn hreads hnever c u ⟨m, -, hm, hu⟩
    obtain hmn | hmn := Nat.lt_or_ge n m
    · exact absurd (hm.symm.trans (drive_behind_unanswered_read hn hreads hnever hmn)) nofun
    · exact not_ended_of_drive_running hn hreads.1.2 hmn hm hu
  · rintro s t n hn ht u ⟨m, hallow, hm, hu⟩
    have hmn : m ≤ n := of_decide_eq_true hallow
    exact not_ended_of_drive_running hn ht hmn hm hu

/-- Settles O14: such a Word has no decoding, and the step without one writes the run status and the stage only. -/
theorem decodeFaultLeavesEverything : Obligations.DecodeFaultLeavesEverything := by
  intro s hmay hword
  obtain ⟨e, he⟩ := (decode_error_iff _ _).2 hword
  exact ⟨_, step_of_decode_error hmay he, rfl, rfl, rfl, rfl, rfl, rfl, rfl, rfl⟩

/-- Settles O16: a decode fault does not halt, an effect halts if it is the halt trap's, and a step is made from a
Running state only. -/
theorem onlyTheHaltTrapHalts : Obligations.OnlyTheHaltTrapHalts := by
  refine ⟨fun s t h => ?_, fun s t hended h => ?_⟩
  · obtain ⟨-, hrun, ⟨e, he, rfl⟩ | ⟨i, hi, hexec⟩⟩ := step_next h
    · exact iff_of_false nofun fun hok => absurd (he.symm.trans hok) nofun
    · have hdec : decode s.params.strictFields (s.mem.read s.pc) = .ok i := hi
      rw [exec_halted_iff hexec hrun, hdec, Except.ok.injEq]
  · obtain ⟨-, hrun, -⟩ := step_next h
    exact s.ended_iff.1 hended hrun

/-- Settles O19: an instruction has a flag destination exactly if its effect writes DR. -/
theorem flagsFollowDrOrStay : Obligations.FlagsFollowDrOrStay := by
  intro i s t h
  obtain ⟨dr, hdr, hflag⟩ | ⟨hnone, hcond⟩ := exec_flag h
  · refine ⟨fun q hq => ?_, fun hn => absurd (hdr.symm.trans hn) nofun⟩
    cases hdr.symm.trans hq
    exact hflag
  · exact ⟨fun q hq => absurd (hnone.symm.trans hq) nofun, fun _ => hcond⟩

/-- Settles O58: `init()` leaves a Running state, and the host writes only where the run has not begun, so that it is
Running by the invariant; neither touches the I/O record, and a memory write keeps the canonical form. -/
theorem launchKeepsTheInvariant : Obligations.LaunchKeepsTheInvariant := by
  constructor
  · rintro s t ⟨hmem, hlog, -, -⟩ h
    obtain ⟨-, rfl⟩ := initOnce_next h
    exact inv_of_running hmem hlog rfl
  · rintro h s t ⟨hmem, hlog, -, hstage⟩ hw
    obtain ⟨hallowed, rfl⟩ := hostWrite_next hw
    have hbefore : s.stage ≠ .started := fun hs => by
      rw [hs, HostWrite.allowed_started] at hallowed
      exact absurd hallowed nofun
    exact inv_of_running (h.apply_wf hmem) (by rwa [h.apply_ioLog]) ((h.apply_status s).trans (hstage hbefore))

/-- Settles O11: which write each stage allows, and what a register or memory write leaves alone. -/
theorem hostWritesBeforeTheFirstStep : Obligations.HostWritesBeforeTheFirstStep := by
  refine ⟨fun s r v hs => ?_, fun s a v hs => ?_, fun s v c hs => ?_, fun s v c hs => ?_, fun s h hs => ?_⟩
  · exact ⟨_, hostWrite_of_allowed (HostWrite.allowed_reg hs r v), (State.reg_setReg s r r v).trans (if_pos rfl),
      setReg_onlyRegs s r v⟩
  · exact ⟨_, hostWrite_of_allowed (HostWrite.allowed_mem hs a v), (State.read_writeMem s a v a).trans (if_pos rfl),
      writeMem_onlyWord s a v⟩
  · have hallowed : ∀ h : HostWrite, h.allowed s.stage = true := hs ▸ HostWrite.allowed_created
    exact ⟨hostWrite_of_allowed (hallowed (.pc v)), hostWrite_of_allowed (hallowed (.cond c))⟩
  · exact ⟨hostWrite_of_not_allowed (HostWrite.allowed_pc hs v), hostWrite_of_not_allowed (HostWrite.allowed_cond hs c)⟩
  · exact hostWrite_of_not_allowed (hs ▸ h.allowed_started)

/-- Settles O13: the two equations of the step. -/
theorem stepRunsTheDecodedInstruction : Obligations.StepRunsTheDecodedInstruction := fun _ hmay =>
  ⟨fun _ hi => step_of_decode_ok hmay hi, fun _ he => step_of_decode_error hmay he⟩

/-- Settles O15: the two refusals of `noStep`, and the inversion of the step. -/
theorem stepDefinedOnlyWhileRunning : Obligations.StepDefinedOnlyWhileRunning := by
  refine fun s => ⟨fun hs => ?_, fun hs hrun => ?_, fun t h => ?_⟩
  · exact step_of_noStep (State.noStep_of_created hs)
  · exact step_of_noStep (State.noStep_of_ended hs hrun)
  · obtain ⟨hs, hrun, -⟩ := step_next h
    exact ⟨hs, hrun⟩

/-- Settles O17: the driver's two equations. -/
theorem driverLoopsUntilTheEnd : Obligations.DriverLoopsUntilTheEnd :=
  ⟨fun n _ _ hrun h => drive_succ_of_step hrun h n, fun n _ h => drive_of_ended h n⟩

/-- Settles O18: the flag of the Word by its number; the update writes COND only. -/
theorem flagUpdateFollowsTheSign : Obligations.FlagUpdateFollowsTheSign := fun _ v => ⟨flagIs_condOf v, rfl⟩

end Sys2Proof.Machine
end

section
/-! PROOFS. The operate instructions ADD, AND and NOT, from what an effect that ends by writing DR does. -/

namespace Sys2Proof.Machine

/-! ### The common end of the flag-affecting instructions (R86) -/

/-- A write of DR and of the flag of the value leaves everything else as it was. -/
theorem setReg_setcc_onlyDrAndFlag (s : State) (dr : Reg) (v : Word) :
    OnlyDrAndFlag dr s ((s.setReg dr v).setcc v) :=
  ⟨setReg_keepsRegs s dr v [], setReg_setcc_flagIs s dr v, rfl, fun _ => rfl, rfl, ⟨rfl, rfl, rfl⟩, rfl, rfl⟩

/-- An effect that is the write of DR completes, with the value in DR. -/
theorem exec_result_of_writeDr {i : Instr} {dr : Reg} {v : Word} {s : State} (h : exec i s = writeDr dr v s) :
    ∃ t, exec i s = .next t ∧ t.reg dr = v ∧ OnlyDrAndFlag dr s t :=
  ⟨(s.setReg dr v).setcc v, h.trans (writeDr_eq dr v s), (State.reg_setReg s dr dr v).trans (if_pos rfl),
    setReg_setcc_onlyDrAndFlag s dr v⟩

/-! ### The value that each operate instruction writes (R93 to R97) -/

theorem exec_addReg (dr sr1 sr2 : Reg) (s : State) :
    exec (.addReg dr sr1 sr2) s = writeDr dr (s.reg sr1 + s.reg sr2) s := rfl

theorem exec_addImm (dr sr1 : Reg) (imm5 : BitVec 5) (s : State) :
    exec (.addImm dr sr1 imm5) s = writeDr dr (s.reg sr1 + sext imm5) s := rfl

theorem exec_andReg (dr sr1 sr2 : Reg) (s : State) :
    exec (.andReg dr sr1 sr2) s = writeDr dr (s.reg sr1 &&& s.reg sr2) s := rfl

theorem exec_andImm (dr sr1 : Reg) (imm5 : BitVec 5) (s : State) :
    exec (.andImm dr sr1 imm5) s = writeDr dr (s.reg sr1 &&& sext imm5) s := rfl

theorem exec_not (dr sr : Reg) (s : State) : exec (.not dr sr) s = writeDr dr (~~~ s.reg sr) s := rfl

/-! ### The immediate as a mask (R96) -/

/-- The bits of a Word masked by a sign-extended field of five bits; from bit 16 up there are none. -/
theorem getLsbD_and_sext (w : Word) (imm5 : BitVec 5) (k : Nat) :
    (w &&& sext imm5).getLsbD k =
      (w.getLsbD k && (if k < 5 then imm5.getLsbD k else decide (k < 16) && imm5.getLsbD 4)) := by
  rw [BitVec.getLsbD_and]
  by_cases hk : k < 16
  · rw [sext_getLsbD imm5 hk, decide_eq_true hk, Bool.true_and]
  · rw [BitVec.getLsbD_of_ge w k (Nat.le_of_not_lt hk), Bool.false_and, Bool.false_and]

/-! ### The obligations -/

/-- Settles O20: the sum of two Words is taken modulo 65536. -/
theorem addRegisterResult : Obligations.AddRegisterResult := by
  refine fun dr sr1 sr2 => ⟨fun strict => decode_encode strict (i := .addReg dr sr1 sr2) rfl, fun s => ?_⟩
  obtain ⟨t, ht, hdr, honly⟩ := exec_result_of_writeDr (exec_addReg dr sr1 sr2 s)
  exact ⟨t, ht, hdr ▸ BitVec.toNat_add .., honly⟩

/-- Settles O21: adding the sign-extended immediate adds its signed value modulo 65536. -/
theorem addImmediateResult : Obligations.AddImmediateResult := by
  refine fun dr sr1 imm5 => ⟨fun strict => decode_encode strict (i := .addImm dr sr1 imm5) rfl, fun s => ?_⟩
  obtain ⟨t, ht, hdr, honly⟩ := exec_result_of_writeDr (exec_addImm dr sr1 imm5 s)
  exact ⟨t, ht, hdr ▸ isSum_add_sext (s.reg sr1) imm5 (by decide), honly⟩

/-- Settles O22: the AND of two Words is bitwise. -/
theorem andRegisterResult : Obligations.AndRegisterResult := by
  refine fun dr sr1 sr2 => ⟨fun strict => decode_encode strict (i := .andReg dr sr1 sr2) rfl, fun s => ?_⟩
  obtain ⟨t, ht, hdr, honly⟩ := exec_result_of_writeDr (exec_andReg dr sr1 sr2 s)
  exact ⟨t, ht, fun _ => hdr ▸ BitVec.getLsbD_and, honly⟩

/-- Settles O23: SR1 is masked by the immediate's five bits and, above them, by its sign. -/
theorem andImmediateResult : Obligations.AndImmediateResult := by
  refine fun dr sr1 imm5 => ⟨fun strict => decode_encode strict (i := .andImm dr sr1 imm5) rfl, fun s => ?_⟩
  obtain ⟨t, ht, hdr, honly⟩ := exec_result_of_writeDr (exec_andImm dr sr1 imm5 s)
  exact ⟨t, ht, fun k => hdr ▸ getLsbD_and_sext (s.reg sr1) imm5 k, honly⟩

/-- Settles O24: the complement of a Word is 65535 minus its number. -/
theorem notResult : Obligations.NotResult := by
  refine fun dr sr => ⟨fun strict => decode_encode strict (i := .not dr sr) rfl, fun s => ?_⟩
  obtain ⟨t, ht, hdr, honly⟩ := exec_result_of_writeDr (exec_not dr sr s)
  exact ⟨t, ht, hdr ▸ BitVec.toNat_not, honly⟩

end Sys2Proof.Machine
end

section
/-! PROOFS. The loads, LEA and the stores, from the address each one forms and what a load and a store do there. -/

namespace Sys2Proof.Machine

/-! ### The addresses (R36, R84) -/

theorem isSum_pcRelative {n : Nat} (off : BitVec n) (s : State) (hn : n ≤ 16 := by decide) :
    IsSum (pcRelative off s) s.pc off.toInt :=
  isSum_add_sext s.pc off hn

theorem isSum_basePlus (base : Reg) (off6 : BitVec 6) (s : State) :
    IsSum (basePlus base off6 s) (s.reg base) off6.toInt :=
  isSum_add_sext (s.reg base) off6 (by decide)

/-! ### The Word that each load and LEA writes (R98 to R101) -/

theorem exec_ld (dr : Reg) (off9 : BitVec 9) (s : State) :
    exec (.ld dr off9) s = writeDr dr (s.mem.read (pcRelative off9 s)) s := rfl

theorem exec_ldi (dr : Reg) (off9 : BitVec 9) (s : State) :
    exec (.ldi dr off9) s = writeDr dr (s.mem.read (s.mem.read (pcRelative off9 s))) s := rfl

theorem exec_ldr (dr base : Reg) (off6 : BitVec 6) (s : State) :
    exec (.ldr dr base off6) s = writeDr dr (s.mem.read (basePlus base off6 s)) s := rfl

theorem exec_lea (dr : Reg) (off9 : BitVec 9) (s : State) :
    exec (.lea dr off9) s = writeDr dr (pcRelative off9 s) s := rfl

/-! ### The Word that each store writes (R102 to R104) -/

theorem exec_st (sr : Reg) (off9 : BitVec 9) (s : State) :
    exec (.st sr off9) s = .next (s.writeMem (pcRelative off9 s) (s.reg sr)) := rfl

theorem exec_sti (sr : Reg) (off9 : BitVec 9) (s : State) :
    exec (.sti sr off9) s = .next (s.writeMem (indirect off9 s) (s.reg sr)) := rfl

theorem exec_str (sr base : Reg) (off6 : BitVec 6) (s : State) :
    exec (.str sr base off6) s = .next (s.writeMem (basePlus base off6 s) (s.reg sr)) := rfl

/-- An effect that is one store completes, with the value at the address and nothing else changed. -/
theorem exec_result_of_writeMem {i : Instr} {a v : Word} {s : State} (h : exec i s = .next (s.writeMem a v)) :
    ∃ t, exec i s = .next t ∧ t.mem.read a = v ∧ OnlyWord a s t :=
  ⟨s.writeMem a v, h, (State.read_writeMem s a v a).trans (if_pos rfl), writeMem_onlyWord s a v⟩

/-! ### The obligations -/

/-- Settles O25: the address is PC-relative, and the Word read there goes to DR. -/
theorem ldResult : Obligations.LdResult := by
  refine fun dr off9 => ⟨fun strict => decode_encode strict (i := .ld dr off9) rfl, fun s => ?_⟩
  obtain ⟨t, ht, hdr, honly⟩ := exec_result_of_writeDr (exec_ld dr off9 s)
  exact ⟨t, pcRelative off9 s, ht, isSum_pcRelative off9 s, hdr, honly⟩

/-- Settles O26: the Word at the PC-relative address is the address of the one that goes to DR. -/
theorem ldiResult : Obligations.LdiResult := by
  refine fun dr off9 => ⟨fun strict => decode_encode strict (i := .ldi dr off9) rfl, fun s => ?_⟩
  obtain ⟨t, ht, hdr, honly⟩ := exec_result_of_writeDr (exec_ldi dr off9 s)
  exact ⟨t, pcRelative off9 s, ht, isSum_pcRelative off9 s, hdr, honly⟩

/-- Settles O27: the address is formed from the base in the state before DR is written, so DR may be the base. -/
theorem ldrResult : Obligations.LdrResult := by
  refine fun dr base off6 => ⟨fun strict => decode_encode strict (i := .ldr dr base off6) rfl, fun s => ?_⟩
  obtain ⟨t, ht, hdr, honly⟩ := exec_result_of_writeDr (exec_ldr dr base off6 s)
  exact ⟨t, basePlus base off6 s, ht, isSum_basePlus base off6 s, hdr, honly⟩

/-- Settles O28: DR receives the PC-relative address, and memory is not read. -/
theorem leaResult : Obligations.LeaResult := by
  refine fun dr off9 => ⟨fun strict => decode_encode strict (i := .lea dr off9) rfl, fun s => ?_⟩
  obtain ⟨t, ht, hdr, honly⟩ := exec_result_of_writeDr (exec_lea dr off9 s)
  exact ⟨t, ht, hdr ▸ isSum_pcRelative off9 s, honly⟩

/-- Settles O29: the one Word written is SR, at the PC-relative address. -/
theorem stResult : Obligations.StResult := by
  refine fun sr off9 => ⟨fun strict => decode_encode strict (i := .st sr off9) rfl, fun s => ?_⟩
  obtain ⟨t, ht, hword, honly⟩ := exec_result_of_writeMem (exec_st sr off9 s)
  exact ⟨t, ht, isSum_pcRelative off9 s, hword, honly⟩

/-- Settles O30: the pointer is read in the state before the store, which may overwrite it. -/
theorem stiResult : Obligations.StiResult := by
  refine fun sr off9 => ⟨fun strict => decode_encode strict (i := .sti sr off9) rfl, fun s => ?_⟩
  obtain ⟨t, ht, hword, honly⟩ := exec_result_of_writeMem (exec_sti sr off9 s)
  exact ⟨t, ht, isSum_pcRelative off9 s, rfl, hword, honly⟩

/-- Settles O31: the one Word written is SR, at the base register plus the offset; SR may be the base. -/
theorem strResult : Obligations.StrResult := by
  refine fun sr base off6 => ⟨fun strict => decode_encode strict (i := .str sr base off6) rfl, fun s => ?_⟩
  obtain ⟨t, ht, hword, honly⟩ := exec_result_of_writeMem (exec_str sr base off6 s)
  exact ⟨t, ht, isSum_basePlus base off6 s, hword, honly⟩

end Sys2Proof.Machine
end

section
/-! PROOFS. Control transfer: BR, JMP, JSR and JSRR, from the address each one puts in PC and the link of R7, and RTI's
fault. -/

namespace Sys2Proof.Machine

/-! ### The frames of a write of PC, and of the link and a write of PC (R106, R107) -/

theorem setPc_onlyPc (s : State) (v : Word) : OnlyPcAndRegs [] s (s.setPc v) :=
  ⟨fun _ _ => rfl, rfl, fun _ => rfl, rfl, ⟨rfl, rfl, rfl⟩, rfl, rfl⟩

theorem linkR7_setPc_onlyPcAndR7 (s : State) (v : Word) : OnlyPcAndRegs [.r7] s ((linkR7 s).setPc v) :=
  ⟨setReg_keepsRegs s .r7 s.pc [], rfl, fun _ => rfl, rfl, ⟨rfl, rfl, rfl⟩, linkR7_keepsLaunch s⟩

/-- An effect that is one write of PC completes, and nothing else changes. -/
theorem exec_result_of_setPc {i : Instr} {v : Word} {s : State} (h : exec i s = .next (s.setPc v)) :
    ∃ t, exec i s = .next t ∧ t.pc = v ∧ OnlyPcAndRegs [] s t :=
  ⟨s.setPc v, h, rfl, setPc_onlyPc s v⟩

/-- An effect that links R7 and writes PC completes, with the return address in R7, and nothing else changes. -/
theorem exec_result_of_link_setPc {i : Instr} {v : Word} {s : State} (h : exec i s = .next ((linkR7 s).setPc v)) :
    ∃ t, exec i s = .next t ∧ t.reg .r7 = s.pc ∧ t.pc = v ∧ OnlyPcAndRegs [.r7] s t :=
  ⟨(linkR7 s).setPc v, h, (State.reg_setReg s .r7 .r7 s.pc).trans (if_pos rfl), rfl, linkR7_setPc_onlyPcAndR7 s v⟩

/-! ### What each control instruction does (R105 to R109) -/

/-- A branch that is not taken writes the PC it finds. -/
theorem exec_br (n z p : Bool) (off9 : BitVec 9) (s : State) :
    exec (.br n z p off9) s = .next (s.setPc (if condSelected n z p s.cond then pcRelative off9 s else s.pc)) := by
  change execBr n z p off9 s = _
  unfold execBr
  split <;> rfl

theorem exec_jmp (base : Reg) (s : State) : exec (.jmp base) s = .next (s.setPc (s.reg base)) := rfl

theorem exec_jsr (off11 : BitVec 11) (s : State) :
    exec (.jsr off11) s = .next ((linkR7 s).setPc (pcRelative off11 s)) := rfl

/-- The base is as it was before the link, but for R7 with `JSRR_LINK_FIRST`, which holds the return address. -/
theorem exec_jsrr (base : Reg) (s : State) :
    exec (.jsrr base) s = .next ((linkR7 s).setPc
      (if base = .r7 ∧ s.params.jsrrLinkFirst = true then s.pc else s.reg base)) := by
  rw [← execJsrr_pc (base := base) rfl]
  rfl

theorem exec_rti (s : State) : exec .rti s = raise (.unsupported .rti) s := rfl

/-! ### The obligations -/

/-- Settles O32: PC receives the PC-relative address exactly if COND is a selected flag. -/
theorem brResult : Obligations.BrResult := by
  refine fun n z p off9 => ⟨fun strict => decode_encode strict (i := .br n z p off9) rfl, fun s => ?_⟩
  obtain ⟨t, ht, hpc, honly⟩ := exec_result_of_setPc (exec_br n z p off9 s)
  refine ⟨t, ht, ?_, honly⟩
  split
  · next hsel =>
    rw [hpc, if_pos ((condSelected_iff n z p s.cond).2 hsel)]
    exact isSum_pcRelative off9 s
  · next hsel => exact hpc.trans (if_neg (mt (condSelected_iff n z p s.cond).1 hsel))

/-- Settles O33: PC receives the base register, and nothing else is written. -/
theorem jmpResult : Obligations.JmpResult := fun base =>
  ⟨fun strict => decode_encode strict (i := .jmp base) rfl, fun s => exec_result_of_setPc (exec_jmp base s)⟩

/-- Settles O34: the return address is linked, and PC receives the PC-relative address. -/
theorem jsrResult : Obligations.JsrResult := by
  refine fun off11 => ⟨fun strict => decode_encode strict (i := .jsr off11) rfl, fun s => ?_⟩
  obtain ⟨t, ht, hlink, hpc, honly⟩ := exec_result_of_link_setPc (exec_jsr off11 s)
  exact ⟨t, ht, hlink, hpc ▸ isSum_pcRelative off11 s, honly⟩

/-- Settles O35: the return address is linked, and PC receives the base register, which the link changes for R7 only. -/
theorem jsrrResult : Obligations.JsrrResult := by
  refine fun base => ⟨fun strict => decode_encode strict (i := .jsrr base) rfl, fun s => ?_⟩
  obtain ⟨t, ht, hlink, hpc, honly⟩ := exec_result_of_link_setPc (exec_jsrr base s)
  refine ⟨t, ht, hlink, ?_, honly⟩
  split
  · next hr7 => exact hpc.trans (if_pos hr7)
  · next hother => exact hpc.trans (if_neg hother)

/-- Settles O36: the Word is RTI's encoding, and raising the fault changes the run status only. -/
theorem rtiAlwaysUnsupported : Obligations.RtiAlwaysUnsupported :=
  ⟨fun strict => decode_encode strict (i := .rti) rfl, fun s => (exec_rti s).trans (raise_eq (.unsupported .rti) s)⟩

end Sys2Proof.Machine
end

section
/-! PROOFS. The trap services: GETC, OUT and PUTS by the host's answer, the string that PUTS reads, HALT, and every
other vector. -/

namespace Sys2Proof.Machine

/-! ### The service of each vector (R110, R111) -/

theorem exec_trap_getc (s : State) : exec (.trap 0x20#8) s = trapGetc (linkR7 s) := rfl

theorem exec_trap_out (s : State) :
    exec (.trap 0x21#8) s = ioWrite (.byte (lowByte (s.reg .r0))) (linkR7 s) := rfl

theorem exec_trap_puts_of_some {s : State} {l : List Byte} (h : s.mem.readString (s.reg .r0) = some l) :
    exec (.trap 0x22#8) s = ioWrite (.bytes l) (linkR7 s) := by
  change trapPuts (linkR7 s) = _
  rw [trapPuts, show (linkR7 s).mem.readString ((linkR7 s).reg .r0) = some l from h]

theorem exec_trap_puts_of_none {s : State} (h : s.mem.readString (s.reg .r0) = none) :
    exec (.trap 0x22#8) s = .fault .putsNeverEnds := by
  change trapPuts (linkR7 s) = _
  rw [trapPuts, show (linkR7 s).mem.readString ((linkR7 s).reg .r0) = none from h]

theorem exec_trap_halt (s : State) : exec (.trap 0x25#8) s = .next ((linkR7 s).setStatus .halted) := rfl

theorem exec_trap_other {v : Byte} (hv : v ∉ recognisedVectors) (s : State) :
    exec (.trap v) s = .next ((linkR7 s).setStatus (.failed (.unsupported (.trapVector v)))) := by
  obtain ⟨hgetc, hout, hputs, hhalt⟩ : v ≠ 0x20#8 ∧ v ≠ 0x21#8 ∧ v ≠ 0x22#8 ∧ v ≠ 0x25#8 := by
    simpa [recognisedVectors] using hv
  change trapService v (linkR7 s) = _
  rw [trapService, if_neg hgetc, if_neg hout, if_neg hputs, if_neg hhalt, raise_eq]

/-! ### The frame of a service that writes no register of its own (R118, R119) -/

theorem linkR7_trapFrame (s : State) (rs : List Reg) : TrapFrame rs s (linkR7 s) :=
  ⟨State.reg_setReg s .r7 .r7 s.pc, setReg_keepsRegs s .r7 s.pc rs, rfl, rfl, fun _ => rfl, linkR7_keepsLaunch s⟩

theorem linkR7_setStatus_keepsIo (s : State) (r : RunStatus) : KeepsIo s ((linkR7 s).setStatus r) := ⟨rfl, rfl, rfl⟩

/-! ### The output, and the host's answers (R34, R92) -/

theorem State.logIo_output (s : State) (e : IoEvent) : (s.logIo e).output = s.output ++ e.reached := by
  simp [State.output]

theorem State.takeReadAnswer_of_cons {s : State} {a : ReadAnswer} {rest : List ReadAnswer}
    (h : s.readAnswers = a :: rest) : s.takeReadAnswer = (a, s.setReadAnswers rest) := by
  rw [State.takeReadAnswer, h]

theorem State.takeWriteAnswer_of_cons {s : State} {a : WriteAnswer} {rest : List WriteAnswer}
    (h : s.writeAnswers = a :: rest) : s.takeWriteAnswer = (a, s.setWriteAnswers rest) := by
  rw [State.takeWriteAnswer, h]

/-! ### GETC, by the host's answer (R112) -/

section
variable {s : State} {rest : List ReadAnswer}

theorem trapGetc_of_byte {b : Byte} (h : s.readAnswers = .byte b :: rest) :
    trapGetc s = .next (((s.setReadAnswers rest).logIo (.readByte b)).setReg .r0 (zext b)) := by
  rw [trapGetc, State.takeReadAnswer_of_cons h]

theorem trapGetc_of_failed {e : IoError} (h : s.readAnswers = .failed e :: rest) :
    trapGetc s = .next (((s.setReadAnswers rest).logIo (.readFailed e)).setStatus (.failed (.io e))) := by
  rw [trapGetc, State.takeReadAnswer_of_cons h]
  exact raise_eq (.io e) _

theorem trapGetc_of_never (h : s.readAnswers = .never :: rest) : trapGetc s = .fault .inputNeverAnswered :=
  (trapGetc_fault s _).2 ⟨by rw [State.takeReadAnswer_of_cons h], rfl⟩

end

theorem zext_toNat (b : Byte) : (zext b).toNat = b.toNat := BitVec.toNat_setWidth_of_le (by decide)

/-! ### The one write call of OUT and PUTS, by the host's answer (R113, R114, R120) -/

section
variable {i : Instr} {call : WriteCall} {s : State} {rest : List WriteAnswer}

/-- A service whose end is an accepted write call outputs the whole of what it asks for, and goes on. -/
theorem exec_result_of_write_accepted (hexec : exec i s = ioWrite call (linkR7 s))
    (h : s.writeAnswers = .accepted :: rest) :
    ∃ t, exec i s = .next t ∧ TrapFrame [] s t ∧ t.status = s.status ∧ t.ioLog = s.ioLog ++ [.wrote call] ∧
      t.output = s.output ++ call.payload ∧ t.writeAnswers = rest ∧ t.readAnswers = s.readAnswers := by
  refine ⟨((linkR7 s).setWriteAnswers rest).logIo (.wrote call), ?_, linkR7_trapFrame s [], rfl, rfl,
    State.logIo_output .., rfl, rfl⟩
  rw [hexec, ioWrite, State.takeWriteAnswer_of_cons (s := linkR7 s) h]

/-- A service whose end is a failed write call outputs a prefix of what it asks for, and fails with the host's error. -/
theorem exec_result_of_write_failed {e : IoError} {n : Nat} (hexec : exec i s = ioWrite call (linkR7 s))
    (h : s.writeAnswers = .failed e n :: rest) :
    ∃ t, exec i s = .next t ∧ TrapFrame [] s t ∧ t.status = .failed (.io e) ∧
      t.ioLog = s.ioLog ++ [.writeFailed call e (call.payload.take n)] ∧
      t.output = s.output ++ call.payload.take n ∧ t.writeAnswers = rest ∧ t.readAnswers = s.readAnswers := by
  refine ⟨(((linkR7 s).setWriteAnswers rest).logIo (.writeFailed call e (call.payload.take n))).setStatus
    (.failed (.io e)), ?_, linkR7_trapFrame s [], rfl, rfl, State.logIo_output .., rfl, rfl⟩
  rw [hexec, ioWrite, State.takeWriteAnswer_of_cons (s := linkR7 s) h]
  exact raise_eq (.io e) _

end

theorem lowByte_toNat (v : Word) : (lowByte v).toNat = v.toNat % 256 := by
  rw [lowByte, BitVec.extractLsb'_toNat, Nat.shiftRight_zero]

/-! ### The string that PUTS reads (R44, R116) -/

/-- The string read ends at the first zero Word, if there is one among the 65536 Words it looks at; it holds
the low bytes of the Words before. -/
theorem Memory.readString_of_first_zero {m : Memory} {a : Word} {n : Nat} (hn : n < 65536)
    (hbefore : ∀ k, k < n → m.read (a + BitVec.ofNat 16 k) ≠ 0#16)
    (hzero : m.read (a + BitVec.ofNat 16 n) = 0#16) :
    ∃ l, m.readString a = some l ∧ l.length = n ∧
      ∀ k, k < n → l[k]? = some (lowByte (m.read (a + BitVec.ofNat 16 k))) := by
  cases hl : m.readString a with
  | none => exact absurd hzero ((Memory.scan_eq_none m 65536 a).1 hl n hn)
  | some l =>
    obtain ⟨-, hend, hbytes⟩ := (Memory.scan_eq_some m 65536 a l).1 hl
    have hlen : l.length = n := by
      obtain hlt | heq | hgt := Nat.lt_trichotomy l.length n
      · exact absurd hend (hbefore l.length hlt)
      · exact heq
      · exact absurd hzero (hbytes n hgt).1
    exact ⟨l, rfl, hlen, fun k hk => (hbytes k (hlen ▸ hk)).2⟩

/-- The 65536 Words that the string read looks at, from whichever address, are all the Words of memory. -/
theorem Memory.readString_eq_none {m : Memory} {a : Word} : m.readString a = none ↔ ∀ b, m.read b ≠ 0#16 := by
  rw [Memory.readString, Memory.scan_eq_none]
  refine ⟨fun h b => ?_, fun h k _ => h _⟩
  have hb := h (b - a).toNat (b - a).isLt
  rwa [BitVec.ofNat_toNat, BitVec.setWidth_eq, BitVec.add_comm, BitVec.sub_add_cancel] at hb

/-! ### The obligations -/

/-- Settles O39: the string is the bytes before the first zero Word, and PUTS ends with the one write call of it. -/
theorem putsWritesTheString : Obligations.PutsWritesTheString := by
  intro s rest n hn hbefore hzero
  obtain ⟨l, hl, hlen, hbytes⟩ := Memory.readString_of_first_zero hn hbefore hzero
  have hexec := exec_trap_puts_of_some hl
  exact ⟨l, hlen, fun k hk => ⟨_, hbytes k hk, lowByte_toNat _⟩, exec_result_of_write_accepted hexec,
    fun _ _ => exec_result_of_write_failed hexec⟩

/-- Settles O40: PUTS is stuck exactly if the string read answers nothing. -/
theorem putsStuckExactlyWithoutZeroWord : Obligations.PutsStuckExactlyWithoutZeroWord := by
  intro s
  rw [← Memory.readString_eq_none (a := s.reg .r0)]
  refine ⟨fun h => ?_, exec_trap_puts_of_none⟩
  obtain ⟨-, -, hf⟩ | ⟨-, hnone, -⟩ := exec_fault h
  · exact absurd hf nofun
  · exact hnone

/-- Settles O59: a run that waits for ever came to a read that is never answered, and behind such a read the driver
answers that wait. -/
theorem answeredReadsNeverWait : Obligations.AnsweredReadsNeverWait := by
  refine fun s => ⟨drive_ne_inputNeverAnswered, fun h n t hn hreads => ?_⟩
  cases ha : t.takeReadAnswer.1 with
  | byte b => exact .inl ⟨b, rfl⟩
  | failed e => exact .inr ⟨e, rfl⟩
  | never => exact absurd (drive_behind_unanswered_read hn hreads ha (Nat.lt_succ_self n)) (h (n + 1))

/-- Settles O37: the three answers to the read; a byte goes to R0, which the link of R7 and the read leave alone. -/
theorem getcFollowsTheAnswer : Obligations.GetcFollowsTheAnswer := by
  refine fun s rest => ⟨fun b h => ?_, fun e h => ?_, fun h => ?_⟩
  · have hexec := (exec_trap_getc s).trans (trapGetc_of_byte h)
    exact ⟨_, hexec, zext_toNat b, execTrap_frame hexec, rfl, rfl,
      (State.logIo_output _ (.readByte b)).trans (List.append_nil _), rfl, rfl⟩
  · exact ⟨_, (exec_trap_getc s).trans (trapGetc_of_failed h), rfl, linkR7_trapFrame s [], rfl,
      (State.logIo_output _ (.readFailed e)).trans (List.append_nil _), rfl, rfl⟩
  · exact (exec_trap_getc s).trans (trapGetc_of_never h)

/-- Settles O38: OUT ends with the write call of the low byte of R0. -/
theorem outFollowsTheAnswer : Obligations.OutFollowsTheAnswer := by
  intro s rest b hb
  obtain rfl : b = lowByte (s.reg .r0) := BitVec.eq_of_toNat_eq (hb.trans (lowByte_toNat _).symm)
  exact ⟨exec_result_of_write_accepted (exec_trap_out s), fun _ _ => exec_result_of_write_failed (exec_trap_out s)⟩

/-- Settles O41: R7 is linked and the run status written, and nothing else. -/
theorem haltResult : Obligations.HaltResult := fun s =>
  ⟨_, exec_trap_halt s, rfl, linkR7_trapFrame s [], linkR7_setStatus_keepsIo s .halted⟩

/-- Settles O42: a vector that is not recognised links R7 and fails, as HALT links R7 and halts. -/
theorem otherVectorsUnsupported : Obligations.OtherVectorsUnsupported := fun _ hv s =>
  ⟨_, exec_trap_other hv s, rfl, linkR7_trapFrame s [], linkR7_setStatus_keepsIo s _⟩

end Sys2Proof.Machine
end

section
/-! PROOFS. The faults: which effect of a running run ends it without success, and the state that a failed I/O call
leaves. -/

namespace Sys2Proof.Machine

/-! ### What ends a running run without success (R126) -/

/-- TRAP fails with its unrecognised vector, or with the capability's error in GETC, OUT or PUTS. -/
theorem execTrap_failed {v : Byte} {s t : State} {e : TickError} (h : execTrap v s = .next t)
    (hs : s.status = .running) (ht : t.status = .failed e) :
    (v ∉ recognisedVectors ∧ e = .unsupported (.trapVector v)) ∨
      ((v = 0x20#8 ∨ v = 0x21#8 ∨ v = 0x22#8) ∧ ∃ k, e = .io k) := by
  have hgo : (linkR7 s).status ≠ .failed e := fun hf => absurd (hs.symm.trans hf) nofun
  rcases execTrap_next h with
    ⟨hv, r, -, ⟨b, rfl⟩ | ⟨k, rfl⟩⟩ | ⟨c, hv, r, -, rfl | ⟨k, n, rfl⟩⟩ | ⟨-, rfl⟩ | ⟨hv, rfl⟩
  · exact absurd ht hgo
  · cases ht
    exact .inr ⟨.inl hv, k, rfl⟩
  · exact absurd ht hgo
  · cases ht
    exact .inr ⟨.inr (hv.imp And.left And.left), k, rfl⟩
  · exact absurd ht nofun
  · cases ht
    exact .inl ⟨hv, rfl⟩

/-- The effects that fail: RTI's, TRAP's as `execTrap_failed` says, and that of the table's reserved row. -/
theorem exec_failed {i : Instr} {s t : State} {e : TickError} (h : exec i s = .next t) (hs : s.status = .running)
    (ht : t.status = .failed e) :
    (i = .rti ∧ e = .unsupported .rti) ∨
    (∃ v, i = .trap v ∧ v ∉ recognisedVectors ∧ e = .unsupported (.trapVector v)) ∨
    (∃ v k, i = .trap v ∧ (v = 0x20#8 ∨ v = 0x21#8 ∨ v = 0x22#8) ∧ e = .io k) ∨
    ∃ low, i = .reserved1101 low ∧ e = .decode (encode i) (s.pc - 1#16) := by
  have hgo : s.status ≠ .failed e := fun hf => absurd (hs.symm.trans hf) nofun
  rcases exec_next h with ⟨dr, v, -, rfl⟩ | ⟨a, r, -, -, rfl⟩ | ⟨-, v, rfl⟩ | ⟨base, -, rfl⟩ | ⟨-, v, rfl⟩ |
    ⟨rfl, rfl⟩ | ⟨v, rfl, htrap⟩ | ⟨low, rfl, rfl⟩
  · exact absurd ht hgo
  · exact absurd ht hgo
  · exact absurd ht hgo
  · exact absurd ht hgo
  · exact absurd ht hgo
  · cases ht
    exact .inl ⟨rfl, rfl⟩
  · obtain ⟨hv, he⟩ | ⟨hv, k, he⟩ := execTrap_failed htrap hs ht
    · exact .inr (.inl ⟨v, rfl, hv, he⟩)
    · exact .inr (.inr (.inl ⟨v, k, rfl, hv, he⟩))
  · cases ht
    exact .inr (.inr (.inr ⟨low, rfl, rfl⟩))

/-! ### The state after a failed I/O call (R120, R124) -/

theorem State.takeReadAnswer_snd (s : State) : s.takeReadAnswer.2 = s.setReadAnswers s.readAnswers.tail := by
  obtain ⟨h, ht⟩ | ⟨a, rest, h, ht⟩ := s.takeReadAnswer_cases <;> rw [ht, h]
  · rw [List.tail_nil, ← h]
    rfl
  · rfl

theorem State.takeWriteAnswer_snd (s : State) : s.takeWriteAnswer.2 = s.setWriteAnswers s.writeAnswers.tail := by
  obtain ⟨h, ht⟩ | ⟨a, rest, h, ht⟩ := s.takeWriteAnswer_cases <;> rw [ht, h]
  · rw [List.tail_nil, ← h]
    rfl
  · rfl

/-- The host's answer to a write call is that of the answers it has ready and of the calls made so far. -/
theorem State.takeWriteAnswer_congr {s t : State} (hw : t.writeAnswers = s.writeAnswers) (hl : t.ioLog = s.ioLog) :
    t.takeWriteAnswer.1 = s.takeWriteAnswer.1 := by
  unfold State.takeWriteAnswer
  rw [hw, hl]
  cases s.writeAnswers <;> rfl

section
variable {s t : State} {e : IoError}

/-- GETC fails by the host's answer only, which it records. -/
theorem trapGetc_ioFault (h : trapGetc s = .next t) (hs : s.status = .running) (ht : t.status = .failed (.io e)) :
    s.takeReadAnswer.1 = .failed e ∧
      t = ((s.setReadAnswers s.readAnswers.tail).logIo (.readFailed e)).setStatus (.failed (.io e)) := by
  rw [← s.takeReadAnswer_snd]
  have hgo : s.takeReadAnswer.2.status = .running := by rwa [s.takeReadAnswer_snd]
  unfold trapGetc at h
  split at h
  · next b u hu =>
    cases h
    rw [hu] at hgo
    exact absurd (hgo.symm.trans ht) nofun
  · next k u hu =>
    cases h
    cases ht
    rw [hu]
    exact ⟨rfl, rfl⟩
  · exact absurd h nofun

/-- A write call fails by the host's answer only, and records the bytes that were output all the same. -/
theorem ioWrite_ioFault {call : WriteCall} (h : ioWrite call s = .next t) (hs : s.status = .running)
    (ht : t.status = .failed (.io e)) :
    ∃ n, s.takeWriteAnswer.1 = .failed e n ∧
      t = ((s.setWriteAnswers s.writeAnswers.tail).logIo
        (.writeFailed call e (call.payload.take n))).setStatus (.failed (.io e)) := by
  rw [← s.takeWriteAnswer_snd]
  have hgo : s.takeWriteAnswer.2.status = .running := by rwa [s.takeWriteAnswer_snd]
  unfold ioWrite at h
  split at h
  · next u hu =>
    cases h
    rw [hu] at hgo
    exact absurd (hgo.symm.trans ht) nofun
  · next k n u hu =>
    cases h
    cases ht
    rw [hu]
    exact ⟨n, rfl, rfl⟩

/-- A failed GETC leaves all but R7 alone and outputs nothing. -/
theorem exec_getc_ioFault (h : exec (.trap 0x20#8) s = .next t) (hs : s.status = .running)
    (ht : t.status = .failed (.io e)) :
    TrapFrame [] s t ∧ s.takeReadAnswer.1 = .failed e ∧ t.output = s.output := by
  obtain ⟨ha, rfl⟩ := trapGetc_ioFault (s := linkR7 s) h hs ht
  exact ⟨linkR7_trapFrame s [], ha ▸ State.takeReadAnswer_congr (s := linkR7 s) rfl rfl,
    (State.logIo_output _ (.readFailed e)).trans (List.append_nil _)⟩

/-- A service whose write call fails leaves all but R7 alone and outputs the first bytes of what it asks for at most. -/
theorem exec_write_ioFault {i : Instr} {call : WriteCall} (hexec : exec i s = ioWrite call (linkR7 s))
    (h : exec i s = .next t) (hs : s.status = .running) (ht : t.status = .failed (.io e)) :
    TrapFrame [] s t ∧ ∃ n, s.takeWriteAnswer.1 = .failed e n ∧ t.output = s.output ++ call.payload.take n := by
  obtain ⟨n, ha, rfl⟩ := ioWrite_ioFault (hexec.symm.trans h) hs ht
  exact ⟨linkR7_trapFrame s [], n, ha ▸ State.takeWriteAnswer_congr (s := linkR7 s) rfl rfl, State.logIo_output ..⟩

end

/-! ### The obligations -/

/-- Settles O44: of the effects, GETC, OUT and PUTS alone fail with an I/O error, each by the host's answer to its one
call; OUT and PUTS make the same call with other bytes. -/
theorem ioFaultState : Obligations.IoFaultState := by
  intro i s t e hs h ht
  obtain ⟨-, he⟩ | ⟨v, -, -, he⟩ | ⟨v, k, rfl, hv, -⟩ | ⟨low, -, he⟩ := exec_failed h hs ht
  · exact absurd he nofun
  · exact absurd he nofun
  · obtain rfl | rfl | rfl := hv
    · obtain ⟨hframe, hanswer, hout⟩ := exec_getc_ioFault h hs ht
      exact ⟨hframe, .inl ⟨rfl, hanswer, hout⟩⟩
    · obtain ⟨hframe, n, hanswer, hout⟩ := exec_write_ioFault (exec_trap_out s) h hs ht
      exact ⟨hframe, .inr ⟨n, hanswer, .inl ⟨rfl, lowByte (s.reg .r0), lowByte_toNat _, hout⟩⟩⟩
    · cases hl : s.mem.readString (s.reg .r0) with
      | none => exact absurd ((exec_trap_puts_of_none hl).symm.trans h) nofun
      | some l =>
        obtain ⟨hframe, n, hanswer, hout⟩ := exec_write_ioFault (exec_trap_puts_of_some hl) h hs ht
        exact ⟨hframe, .inr ⟨n, hanswer, .inr ⟨rfl, l, rfl, hout⟩⟩⟩
  · exact absurd he nofun

/-- Settles O53: a step fails by a Word with no decoding or by its instruction's effect, and the decoder never gives the
reserved row. -/
theorem nothingElseFaults : Obligations.NothingElseFaults := by
  intro s t e h ht
  obtain ⟨-, hrun, ⟨d, hd, rfl⟩ | ⟨i, hi, hexec⟩⟩ := step_next h
  · cases ht
    exact .inl ⟨d, hd, rfl⟩
  · obtain ⟨rfl, he⟩ | ⟨v, rfl, hv, he⟩ | ⟨v, k, rfl, hv, he⟩ | ⟨low, rfl, -⟩ := exec_failed hexec hrun ht
    · exact .inr (.inl ⟨hi, he⟩)
    · exact .inr (.inr (.inl ⟨v, hi, hv, he⟩))
    · exact .inr (.inr (.inr ⟨v, k, hi, hv, he⟩))
    · exact absurd (decode_wellFormed hi) nofun

end Sys2Proof.Machine
end

section
/-! PROOFS. Reset and hazards: `init()`, which runs once, and the step of a store, whose Word the next fetch sees. -/

namespace Sys2Proof.Machine

/-! ### `init()` (R139, R142) -/

theorem initOnce_of_created {s : State} (h : s.stage = .created) :
    initOnce s = .next ((((s.setPc s.params.resetPc).setCond .z).setStatus .running).setStage .initialised) := by
  rw [initOnce, h]

theorem initOnce_of_ne_created {s : State} (h : s.stage ≠ .created) : initOnce s = .refused .alreadyInitialised := by
  unfold initOnce
  split
  · exact absurd ‹_› h
  · rfl
  · rfl

/-! ### The step of a store (R102 to R104, R146) -/

/-- The launch's record is no operand of a store. -/
@[simp] theorem storeAddress_setStage (s : State) (g : Stage) (i : Instr) :
    storeAddress (s.setStage g) i = storeAddress s i := by
  cases i <;> rfl

/-- An effect with a store address is that store and completes. -/
theorem exec_of_storeAddress {i : Instr} {s : State} {a : Word} {r : Reg} (ha : storeAddress s i = some a)
    (hr : storedReg i = some r) : exec i s = .next (s.writeMem a (s.reg r)) := by
  cases i with
  | st sr off9 =>
    cases hr
    cases ha
    exact exec_st r off9 s
  | sti sr off9 =>
    cases hr
    cases ha
    exact exec_sti r off9 s
  | str sr base off6 =>
    cases hr
    cases ha
    exact exec_str r base off6 s
  | _ => exact absurd ha nofun

theorem step_of_store {s : State} {i : Instr} {a : Word} {r : Reg} (hmay : s.MayStep)
    (hi : decode s.params.strictFields s.fetch = .ok i) (ha : storeAddress s.advancePc i = some a)
    (hr : storedReg i = some r) : step s = .next ((s.setStage .started).advancePc.writeMem a (s.reg r)) :=
  (step_of_decode_ok hmay hi).trans
    (exec_of_storeAddress ((storeAddress_setStage s.advancePc .started i).trans ha) hr)

theorem State.read_writeMem_self (s : State) (a v : Word) : (s.writeMem a v).mem.read a = v :=
  (State.read_writeMem s a v a).trans (if_pos rfl)

/-! ### The obligations -/

/-- Settles O52: the step is the store, with PC at A + 1, and the state it leaves fetches the Word stored there. -/
theorem storesAreSeenByTheNextFetch : Obligations.StoresAreSeenByTheNextFetch := by
  intro s i a r hmay hi ha hr
  have hword := State.read_writeMem_self (s.setStage .started).advancePc a (s.reg r)
  refine ⟨_, step_of_store hmay hi ha hr, hword, rfl, fun hpc j hj => ?_⟩
  obtain rfl : a = s.pc + 1#16 := hpc
  exact step_of_decode_ok ⟨nofun, hmay.2⟩ ((congrArg (decode s.params.strictFields) hword).trans hj)

/-- Settles O8: the state that `init()` answers, field by field. -/
theorem initSetsPcCondStatus : Obligations.InitSetsPcCondStatus := fun _ h =>
  ⟨_, initOnce_of_created h, rfl, rfl, rfl, rfl, rfl, rfl, rfl, rfl, rfl, rfl⟩

/-- Settles O9: before `init()` no step is defined, and after it the stage is no longer `created`. -/
theorem initExactlyOnce : Obligations.InitExactlyOnce :=
  ⟨fun _ h => step_of_noStep (State.noStep_of_created h), fun _ => initOnce_of_ne_created⟩

end Sys2Proof.Machine
end

section
/-! PROOFS. The reset state is the launch's. -/

namespace Sys2Proof.Machine

/-- Settles O10: an empty launch is still `created`, so `init()` answers; its three writes on the spec's defaults give
`State.reset`. -/
theorem resetIsInitOfTheEmptyLaunch : Obligations.ResetIsInitOfTheEmptyLaunch :=
  ⟨initOnce_of_created rfl, rfl, rfl, rfl⟩

end Sys2Proof.Machine
end
